-- ==== Sys2Proof/Word.lean ====
section
/-! DEFINITION. The word types of the CORE (spec/00_scope.md R14): everything the spec treats as bits, at the width
it gives. All quantities are unsigned. -/

namespace Sys2Proof

/-- `u4`: a power level. -/
abbrev Nibble := BitVec 4

/-- `u8`: a frame byte, an operand of `SET_POWER_LEVELS`. -/
abbrev Byte := BitVec 8

/-- `u10`: a channel value as a frame carries it. -/
abbrev Chan := BitVec 10

/-- `u16`: an operand of `WRITE`, a channel field of a frame. -/
abbrev Half := BitVec 16

/-- `f32`: the bit pattern of an operand of `WRITE_NORMALIZED`, read as IEEE 754 binary32
(PRESUMED, log entry 7; spec/92_eei_decisions.md D11). -/
abbrev Single := BitVec 32

end Sys2Proof
end

