-- ==== Sys2Proof/Config.lean ====
section
/-! DEFINITION. The fixed parameters (spec/00_scope.md R11) and the open parameters (R12). An open parameter is a
constant without a body, so that a claim about the model is a claim for every value of it. -/

namespace Sys2Proof.Config

/-! Fixed parameters, R11. -/

/-- `BIT_DEPTH`. -/
@[simp] abbrev bitDepth : Nat := 10
/-- `CH_LIMIT` = 2^BIT_DEPTH: the first value that is clamped, and the scale of `WRITE_NORMALIZED`. -/
@[simp] abbrev chLimit : Nat := 1024
/-- `CH_MAX` = 2^BIT_DEPTH − 1. -/
@[simp] abbrev chMax : Nat := 1023
/-- `FRAME_LEN`. -/
@[simp] abbrev frameLen : Nat := 12
/-- `RGB_PL_DEFAULT`. -/
@[simp] abbrev rgbPlDefault : Nibble := 0x2#4
/-- `CW_PL_DEFAULT`. -/
@[simp] abbrev cwPlDefault : Nibble := 0x4#4
/-- `IDLE_LEVEL`: the level of both lines between transmissions. -/
@[simp] abbrev idleLevel : Bool := true

/-! Open parameters, R12. -/

/-- The two orders `CONSTRUCT` may drive the lines in (D6). -/
inductive ConstructOrder where
  | dataFirst
  | clkFirst
  deriving DecidableEq, Repr, Inhabited

/-- What a line answers to a line operation (R100). -/
inductive LineReport where
  | success
  | failure
  deriving DecidableEq, Repr, Inhabited

/-- `CONSTRUCT_ORDER` (D6, U7; log entry 4). -/
opaque constructOrder : ConstructOrder

/-- `NORM_OOR` (R92, D10, U6; log entry 5): what `WRITE_NORMALIZED` hands on for an operand that is negative or not a
number. -/
opaque normOor : Single → Half

/-- The value `NORM` takes for `x ≥ 64.0` and +infinity, before it is raised to at least 1024 (R91, D10, U5;
log entry 6). -/
opaque normHuge : Single → Half

/-- `LINE_STATUS` (R74, D8, U2; log entry 8): the report on the `n`-th line operation since power-on. -/
opaque lineReport : Nat → LineReport

end Sys2Proof.Config
end

