-- ==== Sys2Proof/Syntax.lean ====
section
/-! DEFINITION. The instructions: one constructor per row of spec/opcode_table.json, and the few types their operands
and their words are made of. -/

namespace Sys2Proof

/-- The two output lines (spec/60_exceptions.md R100). -/
inductive Line where
  | data
  | clk
  deriving DecidableEq, Repr

/-- One line operation `emit(L, b)` as it stands in `TRACE`: the line and the level it is driven to, `true` = high
(spec/10_state.md R31, spec/42_line_transport.md R74). -/
structure LineOp where
  line  : Line
  level : Bool
  deriving DecidableEq, Repr

/-- The four frame kinds, which are the four values of the mode field (spec/30_encoding.md R48). -/
inductive Mode where
  | standby
  | rgb3
  | cw2
  | all5
  deriving DecidableEq, Repr

/-- One value per channel, channel 0 first (spec/10_state.md R25: "Channel `i` is operand `v[i]`"). -/
structure Five (α : Type) where
  c0 : α
  c1 : α
  c2 : α
  c3 : α
  c4 : α
  deriving DecidableEq, Repr

/-- The instructions. The first four are the CORE's operation set (spec/00_scope.md R9); the others are the units of
its output that the opcode table lists beside them: the frame kinds (R48), a byte on the wire (R52) and the line
operations (R55). Log entry 10 says how the model runs those. -/
inductive Instr where
  /-- `CONSTRUCT`, R59. -/
  | construct
  /-- `SET_POWER_LEVELS rgb, cw`, R60. -/
  | setPowerLevels (rgb cw : Byte)
  /-- `WRITE v0, v1, v2, v3, v4`, R73. -/
  | write (v : Five Half)
  /-- `WRITE_NORMALIZED f0, f1, f2, f3, f4`, R89. -/
  | writeNormalized (f : Five Single)
  /-- The frame kind `STANDBY`, R48. -/
  | standby
  /-- The frame kind `RGB3`: the RGB level and channels 0 to 2, R48. -/
  | rgb3 (r : Nibble) (p q s : Chan)
  /-- The frame kind `CW2`: the CW level and channels 3 and 4, R48. -/
  | cw2 (c : Nibble) (t u : Chan)
  /-- The frame kind `ALL5`: both levels and the five channels, R48. -/
  | all5 (r c : Nibble) (p q s t u : Chan)
  /-- `BYTE`: one frame byte on the wire, R52, R78. -/
  | byte (b : Byte)
  /-- `DATA_LOW` = `emit(DATA,0)`, R55, R74. -/
  | dataLow
  /-- `DATA_HIGH` = `emit(DATA,1)`, R55, R74. -/
  | dataHigh
  /-- `CLK_LOW` = `emit(CLK,0)`, R55, R74. -/
  | clkLow
  /-- `CLK_HIGH` = `emit(CLK,1)`, R55, R74. -/
  | clkHigh
  deriving DecidableEq, Repr

/-- Where a word is presented. The spec encodes three kinds of thing (spec/30_encoding.md, head of the file): host
commands (formats H0 to H3), frames (F12, and their bytes P9), line operations (LINEOP); the numberings overlap, so a
word is read at the port of its own kind (log entries 1, 10, 11). -/
inductive Port where
  /-- The host's command port: formats H0, H1, H2, H3. The only one a host reaches (R9, R57). -/
  | host
  /-- The Line Transport's frame input: format F12. -/
  | frame
  /-- The serializer's input: format P9. -/
  | wire
  /-- The line drivers' input: format LINEOP. -/
  | line
  deriving DecidableEq, Repr

/-- A word as presented: its port and its bytes, the most significant first, the first one padded with zero bits at
the top up to a whole byte (log entry 12). -/
structure Packet where
  port  : Port
  bytes : List Byte
  deriving DecidableEq, Repr

end Sys2Proof
end

