-- ==== Sys2Proof/WellFormed.lean ====
section
/-! DEFINITION. Which terms of `Instr` the CORE can bring about. Every host command, byte and line
operation is legal with every operand (spec/30_encoding.md R53, spec/42_line_transport.md R78); a frame kind needs what
its row's condition says: an active group has a nonzero channel (spec/41_frame_encoder.md R66). -/

namespace Sys2Proof

/-- `i` is a command the host can issue, or a unit of output the CORE can emit. -/
def Instr.wf : Instr → Bool
  | .construct => true
  | .setPowerLevels _ _ => true
  | .write _ => true
  | .writeNormalized _ => true
  | .standby => true
  | .rgb3 _ p q s => p != 0#10 || q != 0#10 || s != 0#10
  | .cw2 _ t u => t != 0#10 || u != 0#10
  | .all5 _ _ p q s t u => (p != 0#10 || q != 0#10 || s != 0#10) && (t != 0#10 || u != 0#10)
  | .byte _ => true
  | .dataLow => true
  | .dataHigh => true
  | .clkLow => true
  | .clkHigh => true

end Sys2Proof
end

