-- ==== Sys2Proof/Decode.lean ====
section
/-! DEFINITION. The encodings of spec/30_encoding.md: the decoder, total on any bytes at any port and rejecting by name,
and after it the encoder. Bit 0 is the least significant bit (spec/00_scope.md R13). -/

namespace Sys2Proof

/-! ### Bit fields and bytes -/

/-- The more significant byte of a channel field, at the lower offset (R35). -/
def highByte (v : Half) : Byte := v.extractLsb' 8 8

/-- The less significant byte of a channel field (R35). -/
def lowByte (v : Half) : Byte := v.extractLsb' 0 8

/-- The channel field whose bytes are `h`, then `l` (big-endian, R35). -/
def joinBytes (h l : Byte) : Half := h ++ l

/-- The ten bits a channel field carries; bits 15:10 are dropped (the decoder has checked them, R50). -/
def chanOf (h l : Byte) : Chan := (joinBytes h l).setWidth 10

/-- A channel value zero-extended to its 16-bit field (R51). -/
def chanField (c : Chan) : Half := c.setWidth 16

/-- Bits 15:10 of the channel field are zero, seen in its high byte (R50). -/
def chanFits (h : Byte) : Bool := h.extractLsb' 2 6 == 0#6

/-- Byte `k` of a binary32 pattern, byte 0 the least significant. -/
def singleByte (f : Single) (k : Nat) : Byte := f.extractLsb' (8 * k) 8

/-- The binary32 pattern with these bytes, the most significant first. -/
def joinSingle (a b c d : Byte) : Single := a ++ b ++ c ++ d

/-- `RRRRCCCC` (R49). -/
def levelByte (r c : Nibble) : Byte := r ++ c

/-- The 2-bit code of a mode (R48). -/
def modeCode : Mode → BitVec 2
  | .standby => 0b00#2
  | .rgb3 => 0b01#2
  | .cw2 => 0b10#2
  | .all5 => 0b11#2

/-- The mode with this code: "All four values of `MM` are used; none is reserved" (R53). -/
def modeOf (mm : BitVec 2) : Mode :=
  if mm = 0b00#2 then .standby
  else if mm = 0b01#2 then .rgb3
  else if mm = 0b10#2 then .cw2
  else .all5

/-- The number whose bytes these are, the most significant first. -/
def number (bs : List Byte) : Nat := bs.foldl (fun a b => a * 256 + b.toNat) 0

/-- The `n` low bytes of `w`, the most significant first. -/
def bytesOf : Nat → Nat → List Byte
  | 0, _ => []
  | n + 1, w => bytesOf n (w / 256) ++ [BitVec.ofNat 8 w]

/-! ### A byte on the wire (R52) and line operation codes (R55) -/

/-- `cxC`: clock low, data set, clock high (R16, R77). -/
def pulse (x : Bool) : List LineOp := [⟨.clk, false⟩, ⟨.data, x⟩, ⟨.clk, true⟩]

/-- The trailer pulse `cDC` (R79). -/
def trailerOps : List LineOp := [⟨.clk, false⟩, ⟨.data, true⟩, ⟨.clk, true⟩]

/-- The 27 line operations of a frame byte: eight bit pulses, most significant bit first, then the trailer
(R52, R78). -/
def byteOps (b : Byte) : List LineOp :=
  [7, 6, 5, 4, 3, 2, 1, 0].flatMap (fun j => pulse (b.getLsbD j)) ++ trailerOps

/-- `line ++ level` (R55). -/
def lineCode (op : LineOp) : Nat :=
  (match op.line with | .data => 0 | .clk => 2) + (if op.level then 1 else 0)

/-- The line operation with this code, bits 1:0 of `n`. -/
def lineOfCode (n : Nat) : LineOp :=
  ⟨if n.testBit 1 then .clk else .data, n.testBit 0⟩

/-- Line operations as one number of 2-bit codes, the first in the most significant bits (R52). -/
def packCodes (ops : List LineOp) : Nat := ops.foldl (fun a op => a * 4 + lineCode op) 0

/-- The `n` line operations whose codes are the low `2 n` bits of `w`. -/
def unpackCodes : Nat → Nat → List LineOp
  | 0, _ => []
  | n + 1, w => unpackCodes n (w / 4) ++ [lineOfCode w]

/-- The data levels of a list of pulses; none where it is not one. -/
def pulseLevels : List LineOp → Option (List Bool)
  | [] => some []
  | a :: d :: c :: rest =>
    if a = ⟨.clk, false⟩ ∧ d.line = .data ∧ c = ⟨.clk, true⟩ then (pulseLevels rest).map (d.level :: ·) else none
  | _ => none

/-- The byte with these bits, bit 7 first. -/
def byteOfBits (b7 b6 b5 b4 b3 b2 b1 b0 : Bool) : Byte :=
  BitVec.ofBool b7 ++ BitVec.ofBool b6 ++ BitVec.ofBool b5 ++ BitVec.ofBool b4 ++
  BitVec.ofBool b3 ++ BitVec.ofBool b2 ++ BitVec.ofBool b1 ++ BitVec.ofBool b0

/-! ### The decoder -/

/-- Why bytes are no word of the spec's encodings. All but the first two are patterns "not generated by this hardware"
(R53, U9; log entry 13). -/
inductive DecodeError where
  /-- Not as many bytes as a word at this port (with this selector) has. -/
  | wrongLength
  /-- A padding bit above the word's width is set. -/
  | padding
  /-- `DD` is not 11. -/
  | classMarker
  /-- Bit 5 of the address byte is set. -/
  | reservedBit
  /-- `NNN` is not 000. -/
  | outputOffset
  /-- A channel field has a bit of 15:10 set. -/
  | channelWidth
  /-- The level nibble of an inactive group is not 0. -/
  | inactiveLevel
  /-- A channel of an inactive group is not 0. -/
  | inactiveChannel
  /-- The 27 line operations are not eight bit pulses and a trailer. -/
  | pulseShape
  deriving DecidableEq, Repr

/-- The operands of `SET_POWER_LEVELS` (format H1, R54). -/
def decodeH1 : List Byte → Except DecodeError Instr
  | [rgb, cw] => .ok (.setPowerLevels rgb cw)
  | _ => .error .wrongLength

/-- The operands of `WRITE` (format H2, R54). -/
def decodeH2 : List Byte → Except DecodeError Instr
  | [h0, l0, h1, l1, h2, l2, h3, l3, h4, l4] =>
    .ok (.write ⟨joinBytes h0 l0, joinBytes h1 l1, joinBytes h2 l2, joinBytes h3 l3, joinBytes h4 l4⟩)
  | _ => .error .wrongLength

/-- The operands of `WRITE_NORMALIZED` (format H3, R54). -/
def decodeH3 : List Byte → Except DecodeError Instr
  | [a0, b0, c0, d0, a1, b1, c1, d1, a2, b2, c2, d2, a3, b3, c3, d3, a4, b4, c4, d4] =>
    .ok (.writeNormalized ⟨joinSingle a0 b0 c0 d0, joinSingle a1 b1 c1 d1, joinSingle a2 b2 c2 d2,
      joinSingle a3 b3 c3 d3, joinSingle a4 b4 c4 d4⟩)
  | _ => .error .wrongLength

/-- A host command: the selector `op` in bits 1:0 of the first byte, then the operands (R54; each format's width is
2 above a whole number of bytes, so padding fills the first byte only). -/
def decodeHost : List Byte → Except DecodeError Instr
  | [] => .error .wrongLength
  | op :: args =>
    if op = 0#8 then (if args = [] then .ok .construct else .error .wrongLength)
    else if op = 1#8 then decodeH1 args
    else if op = 2#8 then decodeH2 args
    else if op = 3#8 then decodeH3 args
    else .error .padding

/-- A frame by its fields: "decode by FRAME[0] alone" (note of spec/opcode_table.json), with the fields that the kind's
row fixes at 0 checked. Whether an active group has a nonzero channel is `Instr.wf`, not asked here (log entry 13). -/
def decodeKind (m : Mode) (r c : Nibble) (p q s t u : Chan) : Except DecodeError Instr :=
  match m with
  | .standby =>
    if r ≠ 0#4 ∨ c ≠ 0#4 then .error .inactiveLevel
    else if p ≠ 0#10 ∨ q ≠ 0#10 ∨ s ≠ 0#10 ∨ t ≠ 0#10 ∨ u ≠ 0#10 then .error .inactiveChannel
    else .ok .standby
  | .rgb3 =>
    if c ≠ 0#4 then .error .inactiveLevel
    else if t ≠ 0#10 ∨ u ≠ 0#10 then .error .inactiveChannel
    else .ok (.rgb3 r p q s)
  | .cw2 =>
    if r ≠ 0#4 then .error .inactiveLevel
    else if p ≠ 0#10 ∨ q ≠ 0#10 ∨ s ≠ 0#10 then .error .inactiveChannel
    else .ok (.cw2 c t u)
  | .all5 => .ok (.all5 r c p q s t u)

/-- A frame, `FRAME[0]` first (format F12, R46, R47, R49, R50). -/
def decodeFrame : List Byte → Except DecodeError Instr
  | [a, l, h0, l0, h1, l1, h2, l2, h3, l3, h4, l4] =>
    if a.extractLsb' 6 2 ≠ 0b11#2 then .error .classMarker
    else if a.extractLsb' 5 1 ≠ 0#1 then .error .reservedBit
    else if a.extractLsb' 0 3 ≠ 0#3 then .error .outputOffset
    else if !(chanFits h0 && chanFits h1 && chanFits h2 && chanFits h3 && chanFits h4) then .error .channelWidth
    else decodeKind (modeOf (a.extractLsb' 3 2)) (l.extractLsb' 4 4) (l.extractLsb' 0 4)
      (chanOf h0 l0) (chanOf h1 l1) (chanOf h2 l2) (chanOf h3 l3) (chanOf h4 l4)
  | _ => .error .wrongLength

/-- The byte whose nine pulses these are: eight data levels, then the trailer's high level (R52). -/
def decodeLevels : Option (List Bool) → Except DecodeError Instr
  | some [b7, b6, b5, b4, b3, b2, b1, b0, true] => .ok (.byte (byteOfBits b7 b6 b5 b4 b3 b2 b1 b0))
  | _ => .error .pulseShape

/-- A frame byte on the wire, as 27 two-bit codes in 54 bits (format P9, R52). -/
def decodeWire (bs : List Byte) : Except DecodeError Instr :=
  if bs.length ≠ 7 then .error .wrongLength
  else if 2 ^ 54 ≤ number bs then .error .padding
  else decodeLevels (pulseLevels (unpackCodes 27 (number bs)))

/-- A line operation (format LINEOP, R55). -/
def decodeLine : List Byte → Except DecodeError Instr
  | [b] =>
    if b = 0b00#8 then .ok .dataLow
    else if b = 0b01#8 then .ok .dataHigh
    else if b = 0b10#8 then .ok .clkLow
    else if b = 0b11#8 then .ok .clkHigh
    else .error .padding
  | _ => .error .wrongLength

/-- The decoder. -/
def decode (p : Packet) : Except DecodeError Instr :=
  match p.port with
  | .host => decodeHost p.bytes
  | .frame => decodeFrame p.bytes
  | .wire => decodeWire p.bytes
  | .line => decodeLine p.bytes

/-! ### The encoder -/

/-- The address byte `11 0 MM 000` (R47). -/
def addressField (m : Mode) : Byte := 0b11#2 ++ 0b0#1 ++ modeCode m ++ 0b000#3

/-- The two bytes of a channel field (R35, R51). -/
def chanBytes (c : Chan) : List Byte := [highByte (chanField c), lowByte (chanField c)]

/-- The 12 bytes of a frame by its fields (R46). -/
def frameBytes (m : Mode) (r c : Nibble) (p q s t u : Chan) : List Byte :=
  [addressField m, levelByte r c] ++ chanBytes p ++ chanBytes q ++ chanBytes s ++ chanBytes t ++ chanBytes u

/-- The four bytes of a binary32 operand, the most significant first. -/
def singleBytes (f : Single) : List Byte := [singleByte f 3, singleByte f 2, singleByte f 1, singleByte f 0]

/-- The word of an instruction, at its port. -/
def encode : Instr → Packet
  | .construct => ⟨.host, [0#8]⟩
  | .setPowerLevels rgb cw => ⟨.host, [1#8, rgb, cw]⟩
  | .write v => ⟨.host, [2#8, highByte v.c0, lowByte v.c0, highByte v.c1, lowByte v.c1, highByte v.c2, lowByte v.c2,
      highByte v.c3, lowByte v.c3, highByte v.c4, lowByte v.c4]⟩
  | .writeNormalized f => ⟨.host, 3#8 :: (singleBytes f.c0 ++ singleBytes f.c1 ++ singleBytes f.c2 ++
      singleBytes f.c3 ++ singleBytes f.c4)⟩
  | .standby => ⟨.frame, frameBytes .standby 0#4 0#4 0#10 0#10 0#10 0#10 0#10⟩
  | .rgb3 r p q s => ⟨.frame, frameBytes .rgb3 r 0#4 p q s 0#10 0#10⟩
  | .cw2 c t u => ⟨.frame, frameBytes .cw2 0#4 c 0#10 0#10 0#10 t u⟩
  | .all5 r c p q s t u => ⟨.frame, frameBytes .all5 r c p q s t u⟩
  | .byte b => ⟨.wire, bytesOf 7 (packCodes (byteOps b))⟩
  | .dataLow => ⟨.line, [0b00#8]⟩
  | .dataHigh => ⟨.line, [0b01#8]⟩
  | .clkLow => ⟨.line, [0b10#8]⟩
  | .clkHigh => ⟨.line, [0b11#8]⟩

/-! ### Words by the opcode table's numbering -/

/-- The word that spec/opcode_table.json writes as the `nbits`-bit number `w`, in whole bytes. The table's formats
differ in their number of bytes, but for H0 and LINEOP (one byte each): there 00 is read as `CONSTRUCT` and the other
codes as line operations, so `DATA_LOW`, whose table word is the same 00, is reached by its own port only
(DESIGN CHOICE, log entry 11). -/
def tablePacket (nbits w : Nat) : Packet :=
  let n := (nbits + 7) / 8
  let port : Port :=
    if n = 1 then (if w = 0 then .host else .line)
    else if n = 12 then .frame
    else if n = 7 then .wire
    else .host
  ⟨port, bytesOf n w⟩

/-- The instruction the decoder reads from the `nbits`-bit number `w` of the opcode table. -/
def decodeTableWord (nbits w : Nat) : Option Instr :=
  match decode (tablePacket nbits w) with
  | .ok i => some i
  | .error _ => none

end Sys2Proof
end

