-- ==== Sys2Proof/Machine/State.lean ====
section
/-! DEFINITION. The state of the CORE (spec/10_state.md R20, R31), the reasons a step can stop, and the two states the
spec names: power-on and reset (R32). -/

namespace Sys2Proof.Machine

/-- The phases 0, 1, 2 of a pulse (R27). -/
inductive Phase where
  | p0
  | p1
  | p2
  deriving DecidableEq, Repr

/-- The 328 positions of `SEQ` inside a transmission, each naming the next line operation to issue (R27). -/
inductive TxPos where
  | start
  | bit (k : Fin 12) (j : Fin 8) (p : Phase)
  | trl (k : Fin 12) (p : Phase)
  | stop (p : Phase)
  deriving DecidableEq, Repr

/-- The 329 values of `SEQ` (R27). -/
inductive SeqPos where
  | idle
  | tx (p : TxPos)
  deriving DecidableEq, Repr

/-- The frame buffer `FRAME` as (offset, byte) cells in rising order of offset. A byte that is not listed holds no
value (R28, R32, D13; log entry 14). -/
abbrev Memory := List Host.Cell

/-- The state: R20's seven items, the observation `TRACE` (R31) and the model's list of words not yet taken. `none`
is the spec's "no value" (R32; log entry 3). -/
structure State where
  /-- `RGB_PL`, R21. -/
  rgbPl       : Option Nibble
  /-- `CW_PL`, R22. -/
  cwPl        : Option Nibble
  /-- `DATA_OUT`, R29; `true` is high. -/
  dataOut     : Option Bool
  /-- `CLK_OUT`, R29. -/
  clkOut      : Option Bool
  /-- `FRAME[0..11]`, R28. -/
  frame       : Memory
  /-- `SEQ`, R27. -/
  seq         : SeqPos
  /-- `CONSTRUCTED`, R30. -/
  constructed : Bool
  /-- `TRACE`, oldest first, R31. -/
  trace       : List LineOp
  /-- The words presented and not yet taken, first first (the model's own, log entry 1). -/
  pending     : List Packet
  deriving DecidableEq, Repr

/-- Faults: the reads of which the spec says "no value" (R32, U4, D13). All are safe (the machine stops where the
hardware has no such read), and no run reaches one. -/
inductive Fault where
  /-- `WRITE` or `WRITE_NORMALIZED` reads `RGB_PL` while it holds no value. Safe. -/
  | rgbPlNoValue
  /-- `WRITE` or `WRITE_NORMALIZED` reads `CW_PL` while it holds no value. Safe. -/
  | cwPlNoValue
  /-- The transmitter reads `FRAME[k]` while it holds no value. Safe. -/
  | frameNoValue (k : Nat)
  deriving DecidableEq, Repr

/-- Refusals. All are safe: each stops a run. -/
inductive Refusal where
  /-- An arm of exec without a meaning. -/
  | notModelled (mnemonic : String)
  /-- An instruction while `SEQ ≠ IDLE` (R61, R108, R109, D5, D12). -/
  | busy
  /-- An instruction other than `CONSTRUCT` while `CONSTRUCTED = 0` (R30, R61, R106, D7). -/
  | notConstructed
  /-- The step takes a word that is no word of the spec's encodings (R53, U9). -/
  | undecodable (why : DecodeError)
  deriving DecidableEq, Repr

/-- The two line operations of `CONSTRUCT`, in the order `CONSTRUCT_ORDER` (R59). -/
def constructOps : Config.ConstructOrder → List LineOp
  | .dataFirst => [⟨.data, Config.idleLevel⟩, ⟨.clk, Config.idleLevel⟩]
  | .clkFirst => [⟨.clk, Config.idleLevel⟩, ⟨.data, Config.idleLevel⟩]

/-- Before the first `CONSTRUCT` (R32, R106). -/
def State.powerOn : State where
  rgbPl := none
  cwPl := none
  dataOut := none
  clkOut := none
  frame := []
  seq := .idle
  constructed := false
  trace := []
  pending := []

/-- After reset, which is the operation `CONSTRUCT` (R105), issued at power-on (R32; log entry 2). -/
def State.reset : State where
  rgbPl := some Config.rgbPlDefault
  cwPl := some Config.cwPlDefault
  dataOut := some Config.idleLevel
  clkOut := some Config.idleLevel
  frame := []
  seq := .idle
  constructed := true
  trace := constructOps Config.constructOrder
  pending := []

end Sys2Proof.Machine
end

