-- ==== Sys2Proof/Machine/Ops.lean ====
section
/-! DEFINITION. The operations the meanings share: the frame buffer, the registers, the line operation, the legality
guard, the sequencer.

TAKING AN EXCEPTION has no operation here, because the CORE has none: "The set of exceptions is empty"
(spec/60_exceptions.md R93), "There is no trap mechanism: no state is ever saved, no mode changes, no vector or handler
exists" (R97), "There is no return-from-trap operation" (R98). -/

namespace Sys2Proof.Machine

/-! ### The frame buffer (spec/20_memory.md R34, R35, R38) -/

/-- The canonical form: offsets rise strictly and lie in frame space, 0 to 11 (R34). -/
abbrev Memory.wf (m : Memory) : Prop :=
  (m.map Prod.fst).Pairwise (· < ·) ∧ ∀ c ∈ m, c.1 < Config.frameLen

/-- The byte at offset `a`; `none` where it holds no value. What an unlisted offset reads as is said here and
nowhere else. -/
def Memory.lookup : Memory → Nat → Option Byte
  | [], _ => none
  | (k, b) :: rest, a => if k = a then some b else Memory.lookup rest a

/-- Puts `b` at offset `a`, keeping the order of offsets. -/
def Memory.put : Memory → Nat → Byte → Memory
  | [], a, b => [(a, b)]
  | (k, x) :: rest, a, b =>
    if a < k then (a, b) :: (k, x) :: rest
    else if a = k then (a, b) :: rest
    else (k, x) :: Memory.put rest a b

/-- `MemWrite(k, 1, b)` (R15). Frame space has no other offsets than 0 to 11, so no write can miss it (R37). -/
def Memory.store (m : Memory) (k : Fin 12) (b : Byte) : Memory := m.put k.val b

/-- `MemWrite(2 + 2 i, 2, h)` for channel `i`: the high byte at the lower offset (R15, R35). -/
def Memory.storeChannel (m : Memory) (i : Fin 5) (h : Half) : Memory :=
  (m.store ⟨2 + 2 * i.val, by omega⟩ (highByte h)).store ⟨2 + 2 * i.val + 1, by omega⟩ (lowByte h)

/-- `MemRead(k, 1)` (R15): a fault where `FRAME[k]` holds no value (D13, U4). -/
def readFrame (m : Memory) (k : Fin 12) : Except Fault Byte :=
  match m.lookup k.val with
  | some b => .ok b
  | none => .error (.frameNoValue k.val)

/-! ### The line operation (spec/42_line_transport.md R74) -/

/-- `emit(L, b)` for one report of the line: it is issued and recorded, the latch takes the commanded level, and the
report is discarded (R74, R86, R101). -/
def emitReported (_report : Config.LineReport) (op : LineOp) (s : State) : State :=
  { s with
    trace := s.trace ++ [op]
    dataOut := if op.line = .data then some op.level else s.dataOut
    clkOut := if op.line = .clk then some op.level else s.clkOut }

/-- `emit(L, b)`, with the report the line happens to give (log entry 8). -/
def emit (op : LineOp) (s : State) : State := emitReported (Config.lineReport s.trace.length) op s

/-- Several line operations, first first. -/
def emitAll (ops : List LineOp) (s : State) : State := ops.foldl (fun t op => emit op t) s

/-! ### Registers and guards -/

/-- `busy` (D17). -/
def State.busy (s : State) : Bool := s.seq != .idle

/-- An operation is accepted only when `SEQ = IDLE` (R61, R109). -/
def whenIdle (s : State) (k : Host.Outcome State Fault Refusal) : Host.Outcome State Fault Refusal :=
  if s.busy then .refused .busy else k

/-- "every operation but `CONSTRUCT` only when `CONSTRUCTED = 1`" (R61). -/
def whenReady (s : State) (k : Host.Outcome State Fault Refusal) : Host.Outcome State Fault Refusal :=
  whenIdle s (if s.constructed then k else .refused .notConstructed)

/-- Reads both power levels (R43: "once, when it builds its frame"). -/
def withLevels (s : State) (k : Nibble → Nibble → Host.Outcome State Fault Refusal) :
    Host.Outcome State Fault Refusal :=
  match s.rgbPl, s.cwPl with
  | none, _ => .fault .rgbPlNoValue
  | some _, none => .fault .cwPlNoValue
  | some r, some c => k r c

/-- Writes both power levels (R60: "Both registers are always written"). -/
def State.setLevels (s : State) (r c : Nibble) : State := { s with rgbPl := some r, cwPl := some c }

/-- `CONSTRUCTED <- 1`. -/
def State.setConstructed (s : State) : State := { s with constructed := true }

/-- `FRAME` takes this content, `SEQ <- START` (R81). -/
def State.startTx (s : State) (m : Memory) : State := { s with frame := m, seq := .tx .start }

/-- `FRAME` holds no value from here on (R73). -/
def State.dropFrame (s : State) : State := { s with frame := [] }

/-- The words still to come after one is taken. -/
def State.setPending (s : State) (ps : List Packet) : State := { s with pending := ps }

/-! ### The transmission (spec/42_line_transport.md R75, R81) -/

/-- START (R76). -/
def startOps : List LineOp := [⟨.data, false⟩]

/-- STOP (R80). -/
def stopOps : List LineOp := [⟨.clk, false⟩, ⟨.clk, true⟩, ⟨.data, true⟩]

/-- `TX(FRAME)` for the bytes of a frame, `FRAME[0]` first (R75). -/
def txOps (bytes : List Byte) : List LineOp := startOps ++ bytes.flatMap byteOps ++ stopOps

/-- `out(s)`: the line operation a position names (R81). -/
def lineAt (p : TxPos) (m : Memory) : Except Fault LineOp :=
  match p with
  | .start => .ok ⟨.data, false⟩
  | .bit _ _ .p0 => .ok ⟨.clk, false⟩
  | .bit k j .p1 =>
    match readFrame m k with
    | .ok b => .ok ⟨.data, b.getLsbD j.val⟩
    | .error f => .error f
  | .bit _ _ .p2 => .ok ⟨.clk, true⟩
  | .trl _ .p0 => .ok ⟨.clk, false⟩
  | .trl _ .p1 => .ok ⟨.data, true⟩
  | .trl _ .p2 => .ok ⟨.clk, true⟩
  | .stop .p0 => .ok ⟨.clk, false⟩
  | .stop .p1 => .ok ⟨.clk, true⟩
  | .stop .p2 => .ok ⟨.data, true⟩

/-- `next(s)` (R81). -/
def nextPos : TxPos → SeqPos
  | .start => .tx (.bit 0 7 .p0)
  | .bit k j .p0 => .tx (.bit k j .p1)
  | .bit k j .p1 => .tx (.bit k j .p2)
  | .bit k j .p2 => if 0 < j.val then .tx (.bit k ⟨j.val - 1, by omega⟩ .p0) else .tx (.trl k .p0)
  | .trl k .p0 => .tx (.trl k .p1)
  | .trl k .p1 => .tx (.trl k .p2)
  | .trl k .p2 => if h : k.val < 11 then .tx (.bit ⟨k.val + 1, by omega⟩ 7 .p0) else .tx (.stop .p0)
  | .stop .p0 => .tx (.stop .p1)
  | .stop .p1 => .tx (.stop .p2)
  | .stop .p2 => .idle

/-- Moves `SEQ` on from `p`; when the transmission is over, `FRAME` holds no value any more (R73, R81). -/
def State.advance (p : TxPos) (s : State) : State :=
  { s with seq := nextPos p, frame := if nextPos p = .idle then [] else s.frame }

/-- Line operations presented by themselves, under the condition R30 and R61 put on every operation but `CONSTRUCT`
(log entry 19). -/
def drive (ops : List LineOp) (s : State) : Host.Outcome State Fault Refusal :=
  whenReady s (.next (emitAll ops s))

/-- A whole transmission of these bytes taken as one step, which the spec allows because nothing can come between
(R27, D4). -/
def transmit (bytes : List Byte) (s : State) : Host.Outcome State Fault Refusal :=
  whenReady s (.next (emitAll (txOps bytes) s).dropFrame)

end Sys2Proof.Machine
end

