-- ==== Sys2Proof/Machine/Operands.lean ====
section
/-! DEFINITION. What is done to an operand before it is used: the mask of a power level (spec/40_configuration_ops.md
R60), the clamp of a channel value (spec/41_frame_encoder.md R63), the conversion of a normalized value
(spec/43_write_normalized.md R90 to R92). -/

namespace Sys2Proof.Machine

/-- `x & 0x0F`, bits 3:0 of a power-level operand (R60, R70). -/
def maskLevel (x : Byte) : Nibble := x.extractLsb' 0 4

/-- `CLAMP` (R63): saturation, not truncation. -/
def clamp (x : Half) : Half := if x.toNat < Config.chLimit then x else BitVec.ofNat 16 Config.chMax

/-- One function on every channel. -/
def mapFive {α β : Type} (g : α → β) (v : Five α) : Five β := ⟨g v.c0, g v.c1, g v.c2, g v.c3, g v.c4⟩

/-! ### binary32 (D11; PRESUMED, log entry 7) -/

/-- The sign bit. -/
def f32Sign (x : Single) : Bool := x.getLsbD 31

/-- The biased exponent, bits 30:23. -/
def f32Exp (x : Single) : Nat := (x.extractLsb' 23 8).toNat

/-- The fraction, bits 22:0. -/
def f32Frac (x : Single) : Nat := (x.extractLsb' 0 23).toNat

/-- Not a number. -/
def f32IsNan (x : Single) : Bool := f32Exp x == 255 && f32Frac x != 0

/-- Plus or minus zero. -/
def f32IsZero (x : Single) : Bool := f32Exp x == 0 && f32Frac x == 0

/-- Plus or minus infinity. -/
def f32IsInf (x : Single) : Bool := f32Exp x == 255 && f32Frac x == 0

/-- The magnitude of a finite pattern in units of 2^-149: a normal number has an implicit leading 1. -/
def f32Units (x : Single) : Nat :=
  if f32Exp x = 0 then f32Frac x else (2 ^ 23 + f32Frac x) * 2 ^ (f32Exp x - 1)

/-- `floor(x × 1024)` for a finite `x ≥ 0`, exact (R90, D11, K2). -/
def scaledFloor (x : Single) : Nat := f32Units x * Config.chLimit / 2 ^ 149

/-- The operand is outside the domain of R90 and R91: negative (but not −0.0) or not a number (R92). -/
def normOpen (x : Single) : Bool := f32IsNan x || (f32Sign x && !f32IsZero x)

/-- "some value ≥ 1024" (R91, D10, U5; log entry 6). -/
def atLeastLimit (y : Half) : Half := if y.toNat < Config.chLimit then BitVec.ofNat 16 Config.chLimit else y

/-- The scaled value does not fit 16 bits: `x ≥ 64.0` or +infinity (R91). -/
def normTooLarge (x : Single) : Bool := f32IsInf x || decide (2 ^ 16 ≤ scaledFloor x)

/-- `NORM` (R90, R91, R92). -/
def normOf (x : Single) : Half :=
  if normOpen x then Config.normOor x
  else if normTooLarge x then atLeastLimit (Config.normHuge x)
  else BitVec.ofNat 16 (scaledFloor x)

end Sys2Proof.Machine
end

