-- ==== Sys2Proof/Machine/Configuration.lean ====
section
/-! DEFINITION. The configuration operations (spec/40_configuration_ops.md). -/

namespace Sys2Proof.Machine

/-- `CONSTRUCT` (R59, R105, R108): accepted whether or not `CONSTRUCTED` is set. -/
def execConstruct (s : State) : Host.Outcome State Fault Refusal :=
  whenIdle s (.next (((emitAll (constructOps Config.constructOrder) s).setLevels
    Config.rgbPlDefault Config.cwPlDefault).setConstructed))

/-- `SET_POWER_LEVELS rgb, cw` (R60): no line activity. -/
def execSetPowerLevels (rgb cw : Byte) (s : State) : Host.Outcome State Fault Refusal :=
  whenReady s (.next (s.setLevels (maskLevel rgb) (maskLevel cw)))

end Sys2Proof.Machine
end

