-- ==== Sys2Proof/Machine/Frames.lean ====
section
/-! DEFINITION. The four frame kinds (spec/30_encoding.md R48) as operations of the Line Transport: `TX` of that frame
(spec/42_line_transport.md R75) in one step, under the precondition of the `WRITE` that emits it (log entries 9, 10,
19). -/

namespace Sys2Proof.Machine

/-- `STANDBY`. -/
def execStandby (s : State) : Host.Outcome State Fault Refusal :=
  transmit (frameBytes .standby 0#4 0#4 0#10 0#10 0#10 0#10 0#10) s

/-- `RGB3`. -/
def execRgb3 (r : Nibble) (c0 c1 c2 : Chan) (s : State) : Host.Outcome State Fault Refusal :=
  transmit (frameBytes .rgb3 r 0#4 c0 c1 c2 0#10 0#10) s

/-- `CW2`. -/
def execCw2 (c : Nibble) (c3 c4 : Chan) (s : State) : Host.Outcome State Fault Refusal :=
  transmit (frameBytes .cw2 0#4 c 0#10 0#10 0#10 c3 c4) s

/-- `ALL5`. -/
def execAll5 (r c : Nibble) (c0 c1 c2 c3 c4 : Chan) (s : State) : Host.Outcome State Fault Refusal :=
  transmit (frameBytes .all5 r c c0 c1 c2 c3 c4) s

end Sys2Proof.Machine
end

