-- ==== Sys2Proof/Machine/Flags.lean ====
section
/-! DEFINITION. The CORE has no flags (spec/10_state.md R26). What stands in their place is the four-way mode
classification, "a pure function of the operands of one `WRITE`", and the two frame bytes computed from it
(spec/41_frame_encoder.md R65 to R68). It is never stored (R24). -/

namespace Sys2Proof.Machine

/-- `RGB_ZERO` (R65). -/
def rgbZero (v : Five Half) : Bool := v.c0 == 0#16 && v.c1 == 0#16 && v.c2 == 0#16

/-- `CW_ZERO` (R65). -/
def cwZero (v : Five Half) : Bool := v.c3 == 0#16 && v.c4 == 0#16

/-- `CLASSIFY`, with the tests in the source's order (R66, R72). -/
def classify (v : Five Half) : Mode :=
  if rgbZero v && cwZero v then .standby
  else if cwZero v then .rgb3
  else if rgbZero v then .cw2
  else .all5

/-- `FRAME[0] = 0xC0 | (MM << 3)` (R67). -/
def addressByte (m : Mode) : Byte := 0xC0#8 ||| ((modeCode m).setWidth 8 <<< 3)

/-- `FRAME[1]`: the nibble of an inactive group is 0 (R68). -/
def powerByte (m : Mode) (rgb cw : Nibble) : Byte :=
  let hi : Nibble := if (modeCode m).getLsbD 0 then rgb else 0#4
  let lo : Nibble := if (modeCode m).getLsbD 1 then cw else 0#4
  (hi.setWidth 8 <<< 4) ||| lo.setWidth 8

end Sys2Proof.Machine
end

