-- ==== Sys2Proof/Machine/Encoder.lean ====
section
/-! DEFINITION. The Frame Encoder, assembled (spec/41_frame_encoder.md R62, R64, R69). -/

namespace Sys2Proof.Machine

/-- `PACK(i, x)` (R64). -/
def pack (m : Memory) (i : Fin 5) (x : Half) : Memory := m.storeChannel i (clamp x)

/-- `ENCODE(v, rgb_pl, cw_pl)`: a fresh frame, fully populated (R28, R69). -/
def encodeFrame (v : Five Half) (rgb cw : Nibble) : Memory :=
  let m0 : Memory := Memory.store [] 0 (addressByte (classify v))
  let m1 := m0.store 1 (powerByte (classify v) rgb cw)
  pack (pack (pack (pack (pack m1 0 v.c0) 1 v.c1) 2 v.c2) 3 v.c3) 4 v.c4

/-- The content of a frame buffer as bytes, by rising offset: what the transmitter sends (R36). -/
def frameContent (m : Memory) : List Byte := m.map Prod.snd

end Sys2Proof.Machine
end

