-- ==== Sys2Proof/Machine/Transport.lean ====
section
/-! DEFINITION. `WRITE`, `WRITE_NORMALIZED` and the units of a transmission (spec/42_line_transport.md,
spec/43_write_normalized.md). -/

namespace Sys2Proof.Machine

/-- `FRAME <- ENCODE(v, RGB_PL, CW_PL)`, then `SEQ <- START`; the 328 line operations follow, one a step
(R73, R81). -/
def beginWrite (v : Five Half) (s : State) : Host.Outcome State Fault Refusal :=
  whenReady s (withLevels s (fun rgb cw => .next (s.startTx (encodeFrame v rgb cw))))

/-- `WRITE` (R73). -/
def execWrite (v : Five Half) (s : State) : Host.Outcome State Fault Refusal := beginWrite v s

/-- `WRITE_NORMALIZED`: `NORM` of each operand, then `WRITE` (R58, R89). -/
def execWriteNormalized (f : Five Single) (s : State) : Host.Outcome State Fault Refusal :=
  beginWrite (mapFive normOf f) s

/-- `BYTE` (R78): eight bit pulses and the trailer. -/
def execByte (b : Byte) (s : State) : Host.Outcome State Fault Refusal := drive (byteOps b) s

/-- `DATA_LOW` = `emit(DATA,0)` (R55, R74). -/
def execDataLow (s : State) : Host.Outcome State Fault Refusal := drive [⟨.data, false⟩] s

/-- `DATA_HIGH` = `emit(DATA,1)` (R55, R74). -/
def execDataHigh (s : State) : Host.Outcome State Fault Refusal := drive [⟨.data, true⟩] s

/-- `CLK_LOW` = `emit(CLK,0)` (R55, R74). -/
def execClkLow (s : State) : Host.Outcome State Fault Refusal := drive [⟨.clk, false⟩] s

/-- `CLK_HIGH` = `emit(CLK,1)` (R55, R74). -/
def execClkHigh (s : State) : Host.Outcome State Fault Refusal := drive [⟨.clk, true⟩] s

end Sys2Proof.Machine
end

