-- ==== Sys2Proof/Machine/Dispatch.lean ====
section
/-! DEFINITION. One arm per instruction. -/

namespace Sys2Proof.Machine

def exec (i : Instr) (s : State) : Host.Outcome State Fault Refusal :=
  match i with
  | .construct => Sys2Proof.Machine.execConstruct s
  | .setPowerLevels rgb cw => Sys2Proof.Machine.execSetPowerLevels rgb cw s
  | .write v => Sys2Proof.Machine.execWrite v s
  | .writeNormalized f => Sys2Proof.Machine.execWriteNormalized f s
  | .standby => Sys2Proof.Machine.execStandby s
  | .rgb3 r c0 c1 c2 => Sys2Proof.Machine.execRgb3 r c0 c1 c2 s
  | .cw2 c c3 c4 => Sys2Proof.Machine.execCw2 c c3 c4 s
  | .all5 r c c0 c1 c2 c3 c4 => Sys2Proof.Machine.execAll5 r c c0 c1 c2 c3 c4 s
  | .byte b => Sys2Proof.Machine.execByte b s
  | .dataLow => Sys2Proof.Machine.execDataLow s
  | .dataHigh => Sys2Proof.Machine.execDataHigh s
  | .clkLow => Sys2Proof.Machine.execClkLow s
  | .clkHigh => Sys2Proof.Machine.execClkHigh s

end Sys2Proof.Machine
end

