-- ==== Sys2Proof/Machine/Step.lean ====
section
/-! DEFINITION. One step. `SEQ` plays the program counter (spec/00_scope.md R10): in `IDLE` the step takes the next word
presented, decodes it and runs it; elsewhere it issues the line operation `SEQ` names and moves `SEQ` on
(spec/42_line_transport.md R81). -/

namespace Sys2Proof.Machine

/-- The step in `IDLE`: with nothing presented the block waits (R81, R114). -/
def idleStep (s : State) : Host.Outcome State Fault Refusal :=
  match s.pending with
  | [] => .next s
  | p :: rest =>
    match decode p with
    | .ok i => exec i (s.setPending rest)
    | .error e => .refused (.undecodable e)

/-- The step at a position of a transmission: no word is taken (R85, R109). -/
def txStep (p : TxPos) (s : State) : Host.Outcome State Fault Refusal :=
  match lineAt p s.frame with
  | .ok op => .next ((emit op s).advance p)
  | .error f => .fault f

/-- One step of the CORE. -/
def step (s : State) : Host.Outcome State Fault Refusal :=
  match s.seq with
  | .idle => idleStep s
  | .tx p => txStep p s

/-- `s` with a word of the opcode table presented where the next step takes it: first in line, in `IDLE`
(log entries 2, 20). -/
def State.withFetchWord (s : State) (nbits w : Nat) : State :=
  { s with seq := .idle, pending := tablePacket nbits w :: s.pending }

end Sys2Proof.Machine
end

