-- ==== Sys2Proof/Safety.lean ====
section
/-! DEFINITION. The terms the claims are stated in: runs of many steps, the invariants of the machine, what a listener
on the lines sees, the value of a binary32 pattern. -/

namespace Sys2Proof.Machine

/-! ### Runs -/

/-- `n` steps, stopping at the first fault or refusal. -/
def stepN : Nat → State → Host.Outcome State Fault Refusal
  | 0, s => .next s
  | n + 1, s =>
    match step s with
    | .next t => stepN n t
    | .fault r => .fault r
    | .refused r => .refused r

/-- The words presented all stand at the host's port: nobody but the host presents anything, and it issues host
commands only (R9, R57, R99). -/
def HostOnly (ps : List Packet) : Prop := ∀ p ∈ ps, p.port = .host

/-- Every word presented is a word of the spec's encodings. -/
def Decodable (ps : List Packet) : Prop := ∀ p ∈ ps, ∃ i, decode p = .ok i

/-! ### Lines and trace -/

/-- The level the last operation on a line in `ops` drove it to. -/
def lastLevel (l : Line) (ops : List LineOp) : Option Bool :=
  ((ops.filter (fun op => op.line = l)).getLast?).map LineOp.level

/-- "`DATA_OUT` and `CLK_OUT` record the level of the most recent line operation the block issued on each line"
(R29). -/
def LatchesFollowTrace (s : State) : Prop :=
  s.dataOut = lastLevel .data s.trace ∧ s.clkOut = lastLevel .clk s.trace

/-- The number of a position among the 328 operations of a `WRITE` (R82). -/
def phaseIndex : Phase → Nat
  | .p0 => 0
  | .p1 => 1
  | .p2 => 2

/-- The number of a position among the 328 operations of a `WRITE` (R82). -/
def posIndex : TxPos → Nat
  | .start => 0
  | .bit k j p => 1 + 27 * k.val + 3 * (7 - j.val) + phaseIndex p
  | .trl k p => 25 + 27 * k.val + phaseIndex p
  | .stop p => 325 + phaseIndex p

/-- Operation `n` of the transmission of a frame whose byte `k` is `f k`, in the closed form of R82. -/
def closedOp (f : Nat → Byte) (n : Nat) : LineOp :=
  if n = 0 then ⟨.data, false⟩
  else if n ≤ 324 then
    let k := (n - 1) / 27
    let r := (n - 1) % 27
    if r < 24 then
      let j := 7 - r / 3
      if r % 3 = 0 then ⟨.clk, false⟩ else if r % 3 = 1 then ⟨.data, (f k).getLsbD j⟩ else ⟨.clk, true⟩
    else if r = 24 then ⟨.clk, false⟩ else if r = 25 then ⟨.data, true⟩ else ⟨.clk, true⟩
  else if n = 325 then ⟨.clk, false⟩ else if n = 326 then ⟨.clk, true⟩ else ⟨.data, true⟩

/-- The level of the data line at each rising movement of the clock line, for lines that start at levels `d` and `c`
(R84). -/
def risingLevels : Bool → Bool → List LineOp → List Bool
  | _, _, [] => []
  | d, c, op :: rest =>
    match op.line with
    | .data => risingLevels op.level c rest
    | .clk => if op.level && !c then d :: risingLevels d true rest else risingLevels d op.level rest

/-- A byte's bits, bit 7 first (R36). -/
def bitsOf (b : Byte) : List Bool := [7, 6, 5, 4, 3, 2, 1, 0].map b.getLsbD

/-- Traces made of whole operations only: each `CONSTRUCT`'s two line operations, each `WRITE`'s 328. -/
inductive WholeTrace : List LineOp → Prop where
  | nil : WholeTrace []
  | construct {t : List LineOp} : WholeTrace t → WholeTrace (t ++ constructOps Config.constructOrder)
  | frame {t : List LineOp} (v : Five Half) (r c : Nibble) :
      WholeTrace t → WholeTrace (t ++ txOps (frameContent (encodeFrame v r c)))

/-- `TRACE` is made of whole operations, and of the part of the frame in `FRAME` that `SEQ` says is out (R85). -/
def TraceWhole (s : State) : Prop :=
  match s.seq with
  | .idle => WholeTrace s.trace
  | .tx p => ∃ base, WholeTrace base ∧ s.trace = base ++ (txOps (frameContent s.frame)).take (posIndex p)

/-! ### The invariant -/

/-- The level of the clock line before the operation at a position (R83 (a)). -/
def clkBefore : TxPos → Bool
  | .start => true
  | .bit _ _ .p0 => true
  | .bit _ _ .p1 => false
  | .bit _ _ .p2 => false
  | .trl _ .p0 => true
  | .trl _ .p1 => false
  | .trl _ .p2 => false
  | .stop .p0 => true
  | .stop .p1 => false
  | .stop .p2 => true

/-- Bit `j` of byte `k` of a frame buffer. -/
def frameBit (m : Memory) (k j : Nat) : Option Bool := (m.lookup k).map (fun b => b.getLsbD j)

/-- The level of the data line before the operation at a position: low from START to the first bit, high after each
trailer and in STOP, else the bit sent last (R83). -/
def dataBefore (m : Memory) : TxPos → Option Bool
  | .start => some true
  | .bit k j .p2 => frameBit m k.val j.val
  | .bit k j _ => if j.val = 7 then some (k.val != 0) else frameBit m k.val (j.val + 1)
  | .trl _ .p2 => some true
  | .trl k _ => frameBit m k.val 0
  | .stop _ => some true

/-- What holds of every state a run of the hardware reaches (R23, R28, R29, R30, R32, R83, R87). -/
structure MachineInv (s : State) : Prop where
  /-- Only host commands are presented. -/
  hostOnly : HostOnly s.pending
  /-- The frame buffer is in canonical form. -/
  frameWf : s.frame.wf
  /-- The latches are the last levels commanded. -/
  latches : LatchesFollowTrace s
  /-- Before `CONSTRUCT` nothing has a value and nothing runs (R30, R32). -/
  unconstructed : s.constructed = false →
    s.rgbPl = none ∧ s.cwPl = none ∧ s.dataOut = none ∧ s.clkOut = none ∧ s.trace = [] ∧ s.seq = .idle
  /-- After it both power levels have one (R23). -/
  levels : s.constructed = true → s.rgbPl.isSome ∧ s.cwPl.isSome
  /-- In `IDLE` no frame exists (R28), and both lines are high (R87). -/
  idle : s.seq = .idle →
    s.frame = [] ∧ (s.constructed = true → s.dataOut = some true ∧ s.clkOut = some true)
  /-- In a transmission `FRAME` is a frame the encoder built (R28), and both lines are where the protocol puts them
  (R83). -/
  transmitting : ∀ p, s.seq = .tx p →
    s.constructed = true ∧ (∃ v r c, s.frame = encodeFrame v r c) ∧
    s.clkOut = some (clkBefore p) ∧ s.dataOut = dataBefore s.frame p

/-! ### Frames by their kind -/

/-- The ten bits a frame carries for an operand. -/
def chanValue (x : Half) : Chan := (clamp x).setWidth 10

/-- The frame kind that a `WRITE` of `v` at these levels emits, as an instruction (R48, R66). -/
def kindOf (v : Five Half) (r c : Nibble) : Instr :=
  match classify v with
  | .standby => .standby
  | .rgb3 => .rgb3 r (chanValue v.c0) (chanValue v.c1) (chanValue v.c2)
  | .cw2 => .cw2 c (chanValue v.c3) (chanValue v.c4)
  | .all5 => .all5 r c (chanValue v.c0) (chanValue v.c1) (chanValue v.c2) (chanValue v.c3) (chanValue v.c4)

/-- The channel operands by number (R25). -/
def channel (v : Five Half) (i : Fin 5) : Half :=
  match i with
  | 0 => v.c0
  | 1 => v.c1
  | 2 => v.c2
  | 3 => v.c3
  | 4 => v.c4

/-! ### binary32 values -/

/-- The number a finite binary32 pattern stands for: `(−1)^s · 2^(e − 127) · (1 + f / 2^23)`, or for `e = 0`
`(−1)^s · 2^(−126) · f / 2^23` (IEEE 754; PRESUMED, log entry 7). -/
def f32Value (x : Single) : ℚ :=
  let sign : ℚ := if x.getLsbD 31 then -1 else 1
  let e : Nat := (x.extractLsb' 23 8).toNat
  let f : ℚ := ((x.extractLsb' 0 23).toNat : ℚ) / 2 ^ 23
  if e = 0 then sign * (2 : ℚ) ^ (-126 : Int) * f else sign * (2 : ℚ) ^ ((e : Int) - 127) * (1 + f)

/-- The pattern is finite: neither an infinity nor not a number. -/
def f32Finite (x : Single) : Prop := x.extractLsb' 23 8 ≠ 255#8

end Sys2Proof.Machine
end

