-- ==== Sys2Proof/Certificates/Slice0/Obligations.lean ====
section
/-! DEFINITION. The statements for the provers. A register or latch written `some x` holds `x`; `none` is the spec's "no
value". A statement whose conclusion is `exec i s = .next { s with … }` says both that the instruction completes and
that everything not named is unchanged. -/

open Sys2Proof Sys2Proof.Machine

/-! ### Configuration operations and reset -/

/-- R59, R108: `CONSTRUCT` completes in every idle state, constructed or not. Its two line operations come in one of
the two orders the spec leaves open (`CONSTRUCT_ORDER`). -/
def Obligations.ConstructDrivesBothLinesHighAndSetsDefaults : Prop :=
  ∃ ops : List LineOp, (ops = [⟨.data, true⟩, ⟨.clk, true⟩] ∨ ops = [⟨.clk, true⟩, ⟨.data, true⟩]) ∧
    ∀ s : State, s.seq = .idle →
      exec .construct s = .next
        { s with
          rgbPl := some 0x2#4, cwPl := some 0x4#4, dataOut := some true, clkOut := some true,
          constructed := true, trace := s.trace ++ ops }

/-- R32, R105: reset is what `CONSTRUCT` leaves at power-on. That `State.reset` is the state after `CONSTRUCT` and not
the one before it is the model's reading (log entry 2). -/
def Obligations.ResetIsConstructAtPowerOn : Prop :=
  exec .construct State.powerOn = .next State.reset ∧
  State.reset.rgbPl = some 0x2#4 ∧ State.reset.cwPl = some 0x4#4 ∧
  State.reset.dataOut = some true ∧ State.reset.clkOut = some true ∧
  State.reset.seq = .idle ∧ State.reset.constructed = true ∧ (∀ a, State.reset.frame.lookup a = none)

/-- R60: `SET_POWER_LEVELS` stores both operands modulo 16 and does nothing else. -/
def Obligations.SetPowerLevelsStoresLowFourBits : Prop :=
  ∀ (s : State) (rgb cw : Byte), s.seq = .idle → s.constructed = true →
    ∃ r c : Nibble, r.toNat = rgb.toNat % 16 ∧ c.toNat = cw.toNat % 16 ∧
      exec (.setPowerLevels rgb cw) s = .next { s with rgbPl := some r, cwPl := some c }

/-- R61: which states accept which host command, and that an accepted one completes with every operand. The premise on
the levels is an invariant (the clause `levels` of `MachineInv`). -/
def Obligations.HostCommandsAreLegalExactlyWhenReady : Prop :=
  ∀ (s : State) (i : Instr), (s.constructed = true → s.rgbPl.isSome ∧ s.cwPl.isSome) →
    (i = .construct ∨ (∃ rgb cw, i = .setPowerLevels rgb cw) ∨ (∃ v, i = .write v) ∨
      (∃ f, i = .writeNormalized f)) →
    ((∃ t, exec i s = .next t) ↔ s.seq = .idle ∧ (i = .construct ∨ s.constructed = true)) ∧
    (s.seq ≠ .idle → exec i s = .refused .busy) ∧
    (s.seq = .idle → s.constructed = false → i ≠ .construct → exec i s = .refused .notConstructed)

/-- R108, R109: a host command issued while a transmission is in progress is refused; `CONSTRUCT` is no abort of it. -/
def Obligations.HostCommandsRefusedWhileBusy : Prop :=
  ∀ s : State, s.seq ≠ .idle →
    exec .construct s = .refused .busy ∧
    (∀ rgb cw, exec (.setPowerLevels rgb cw) s = .refused .busy) ∧
    (∀ v, exec (.write v) s = .refused .busy) ∧
    (∀ f, exec (.writeNormalized f) s = .refused .busy)

/-! ### The frame encoder -/

/-- R63: `CLAMP`. -/
def Obligations.ClampSaturatesAt1023 : Prop :=
  ∀ x : Half, (clamp x).toNat = min x.toNat 1023 ∧ (x.toNat < 1024 → clamp x = x) ∧
    (1024 ≤ x.toNat → (clamp x).toNat = 1023)

/-- R66: the mode code as a function of which operands are exactly zero. -/
def Obligations.ModeFollowsWhichGroupsAreZero : Prop :=
  ∀ v : Five Half,
    (modeCode (classify v) = 0b00#2 ↔
      (v.c0 = 0#16 ∧ v.c1 = 0#16 ∧ v.c2 = 0#16) ∧ (v.c3 = 0#16 ∧ v.c4 = 0#16)) ∧
    (modeCode (classify v) = 0b01#2 ↔
      ¬(v.c0 = 0#16 ∧ v.c1 = 0#16 ∧ v.c2 = 0#16) ∧ (v.c3 = 0#16 ∧ v.c4 = 0#16)) ∧
    (modeCode (classify v) = 0b10#2 ↔
      (v.c0 = 0#16 ∧ v.c1 = 0#16 ∧ v.c2 = 0#16) ∧ ¬(v.c3 = 0#16 ∧ v.c4 = 0#16)) ∧
    (modeCode (classify v) = 0b11#2 ↔
      ¬(v.c0 = 0#16 ∧ v.c1 = 0#16 ∧ v.c2 = 0#16) ∧ ¬(v.c3 = 0#16 ∧ v.c4 = 0#16))

/-- R65: the zero tests, and so the mode, are the same on the clamped values. -/
def Obligations.ModeIsTheSameOnClampedOperands : Prop :=
  (∀ x : Half, clamp x = 0#16 ↔ x = 0#16) ∧ ∀ v : Five Half, classify (mapFive clamp v) = classify v

/-- R67, R68: the address byte and the power-level byte of a frame, for each mode. -/
def Obligations.AddressAndPowerByteOfEachMode : Prop :=
  ∀ (v : Five Half) (r c : Nibble),
    (encodeFrame v r c).lookup 0 = some (BitVec.ofNat 8 (0xC0 + 8 * (modeCode (classify v)).toNat)) ∧
    (classify v = .standby →
      (encodeFrame v r c).lookup 0 = some 0xC0#8 ∧ (encodeFrame v r c).lookup 1 = some 0x00#8) ∧
    (classify v = .rgb3 →
      (encodeFrame v r c).lookup 0 = some 0xC8#8 ∧
      (encodeFrame v r c).lookup 1 = some (BitVec.ofNat 8 (16 * r.toNat))) ∧
    (classify v = .cw2 →
      (encodeFrame v r c).lookup 0 = some 0xD0#8 ∧
      (encodeFrame v r c).lookup 1 = some (BitVec.ofNat 8 c.toNat)) ∧
    (classify v = .all5 →
      (encodeFrame v r c).lookup 0 = some 0xD8#8 ∧
      (encodeFrame v r c).lookup 1 = some (BitVec.ofNat 8 (16 * r.toNat + c.toNat)))

/-- R64: channel `i` lies at offsets `2 + 2i` and `2 + 2i + 1`, clamped, big-endian, in every mode. -/
def Obligations.ChannelsArePackedBigEndian : Prop :=
  ∀ (v : Five Half) (r c : Nibble) (i : Fin 5),
    (encodeFrame v r c).lookup (2 + 2 * i.val) =
      some (BitVec.ofNat 8 (min (channel v i).toNat 1023 / 256)) ∧
    (encodeFrame v r c).lookup (2 + 2 * i.val + 1) =
      some (BitVec.ofNat 8 (min (channel v i).toNat 1023 % 256))

/-- R28, R34, R37: a frame is fully populated, holds exactly the offsets 0 to 11, and is in canonical form. -/
def Obligations.EncodedFrameHasExactlyTwelveBytes : Prop :=
  ∀ (v : Five Half) (r c : Nibble),
    (encodeFrame v r c).wf ∧
    (∀ a, a < 12 → ((encodeFrame v r c).lookup a).isSome) ∧ (∀ a, 12 ≤ a → (encodeFrame v r c).lookup a = none) ∧
    (frameContent (encodeFrame v r c)).length = 12

/-- R71 (h): under the same levels two operand tuples give the same frame exactly when their clamped values agree. -/
def Obligations.SameFrameIffSameClampedChannels : Prop :=
  ∀ (v w : Five Half) (r c : Nibble),
    encodeFrame v r c = encodeFrame w r c ↔ ∀ i : Fin 5, clamp (channel v i) = clamp (channel w i)

/-- R71 (d), (e): what the address byte says of the rest of the frame. -/
def Obligations.AddressByteDeterminesInactiveFields : Prop :=
  ∀ (v : Five Half) (r c : Nibble),
    ((encodeFrame v r c).lookup 0 = some 0xC0#8 →
      ∀ a, 1 ≤ a → a ≤ 11 → (encodeFrame v r c).lookup a = some 0#8) ∧
    ((encodeFrame v r c).lookup 0 = some 0xC8#8 →
      (∀ a, 8 ≤ a → a ≤ 11 → (encodeFrame v r c).lookup a = some 0#8) ∧
      ∃ b : Byte, (encodeFrame v r c).lookup 1 = some b ∧ b.toNat % 16 = 0) ∧
    ((encodeFrame v r c).lookup 0 = some 0xD0#8 →
      (∀ a, 2 ≤ a → a ≤ 7 → (encodeFrame v r c).lookup a = some 0#8) ∧
      ∃ b : Byte, (encodeFrame v r c).lookup 1 = some b ∧ b.toNat / 16 = 0)

/-- R71 (g), R110: the frame depends on a stored level only where its group is active. -/
def Obligations.InactiveGroupsLevelIsWithheld : Prop :=
  ∀ v : Five Half,
    ((v.c0 = 0#16 ∧ v.c1 = 0#16 ∧ v.c2 = 0#16) ↔ ∀ r r' c, encodeFrame v r c = encodeFrame v r' c) ∧
    ((v.c3 = 0#16 ∧ v.c4 = 0#16) ↔ ∀ r c c', encodeFrame v r c = encodeFrame v r c')

/-- R48, R53: every frame the encoder builds is the word of its frame kind, and a well-formed one. -/
def Obligations.EncoderBuildsTheWordOfItsFrameKind : Prop :=
  ∀ (v : Five Half) (r c : Nibble),
    (kindOf v r c).wf = true ∧ encode (kindOf v r c) = ⟨.frame, frameContent (encodeFrame v r c)⟩

/-! ### WRITE, WRITE_NORMALIZED and the transmission -/

/-- R73, R81: `WRITE` completes in every constructed idle state: it builds the frame from the two stored levels and
starts the sequencer; no line operation yet. -/
def Obligations.WriteBuildsFrameAndStartsSequencer : Prop :=
  ∀ (s : State) (v : Five Half) (r c : Nibble),
    s.seq = .idle → s.constructed = true → s.rgbPl = some r → s.cwPl = some c →
      exec (.write v) s = .next { s with frame := encodeFrame v r c, seq := .tx .start }

/-- R58, R89: `WRITE_NORMALIZED` completes as `WRITE` of the converted operands, and is that `WRITE` in every
state. That it completes on negative patterns and on those that are not a number, where R92 lets a model without
`NORM_OOR` refuse, is the model's choice (log entry 5); from 64.0 up `NORM` is as log entry 6 says; the patterns are
binary32 by log entry 7. -/
def Obligations.WriteNormalizedIsWriteOfConvertedOperands : Prop :=
  ∀ (s : State) (f : Five Single),
    exec (.writeNormalized f) s = exec (.write ⟨normOf f.c0, normOf f.c1, normOf f.c2, normOf f.c3, normOf f.c4⟩) s ∧
    ∀ r c : Nibble, s.seq = .idle → s.constructed = true → s.rgbPl = some r → s.cwPl = some c →
      exec (.writeNormalized f) s = .next
        { s with
          frame := encodeFrame ⟨normOf f.c0, normOf f.c1, normOf f.c2, normOf f.c3, normOf f.c4⟩ r c, seq := .tx .start }

/-- R73, R75, R81, R85: 328 steps after a `WRITE` has begun, whatever words wait behind it, the whole transmission is
out and the block is idle with both lines high and no frame. The count is of steps as log entry 9 takes them (D4), the
words waiting are those of log entry 1. -/
def Obligations.WriteTransmitsWholeFrameIn328Steps : Prop :=
  ∀ (s : State) (v : Five Half) (r c : Nibble),
    s.seq = .idle → s.constructed = true → s.rgbPl = some r → s.cwPl = some c →
      ∃ t, exec (.write v) s = .next t ∧
        stepN 328 t = .next
          { s with
            dataOut := some true, clkOut := some true, frame := [], seq := .idle,
            trace := s.trace ++ txOps (frameContent (encodeFrame v r c)) } ∧
        ∀ n, n < 328 → ∃ u, stepN n t = .next u ∧ u.seq ≠ .idle

/-- R27, R48, D4: a `WRITE` run operation by operation ends where its frame kind, taken as one transmission,
ends. The two grains are log entry 9; that a frame kind runs as an instruction is the model's choice (log entry 10). -/
def Obligations.WriteEqualsItsFrameKindTakenWhole : Prop :=
  ∀ (s : State) (v : Five Half) (r c : Nibble),
    s.seq = .idle → s.constructed = true → s.rgbPl = some r → s.cwPl = some c →
      ∃ t, exec (.write v) s = .next t ∧ stepN 328 t = exec (kindOf v r c) s

/-- R82: the closed form of the transmission. -/
def Obligations.TransmissionHasTheClosedForm : Prop :=
  ∀ bs : List Byte, bs.length = 12 →
    (txOps bs).length = 328 ∧
    ∀ n, n < 328 → (txOps bs)[n]? = some (closedOp (fun k => bs.getD k 0#8) n)

/-- R88: the counts per `WRITE`. -/
def Obligations.TransmissionCounts : Prop :=
  ∀ bs : List Byte, bs.length = 12 →
    (txOps bs).length = 328 ∧ (txOps bs).count ⟨.clk, false⟩ = 109 ∧ (txOps bs).count ⟨.clk, true⟩ = 109 ∧
    (txOps bs).countP (fun op => op.line = .data) = 110

/-- R84: the data levels at the rising clock movements, for a transmission that starts from idle. -/
def Obligations.RisingClockSamplesFrameBits : Prop :=
  ∀ bs : List Byte, bs.length = 12 →
    risingLevels true true (txOps bs) = bs.flatMap (fun b => bitsOf b ++ [true]) ++ [true]

/-- R85: two transmissions have the same operations but for the level of their 96 data bits. -/
def Obligations.OnlyDataBitLevelsDependOnTheFrame : Prop :=
  ∀ bs cs : List Byte, bs.length = 12 → cs.length = 12 →
    (txOps bs).map LineOp.line = (txOps cs).map LineOp.line ∧
    ∀ n, (txOps bs)[n]? ≠ (txOps cs)[n]? →
      ∃ k j, k < 12 ∧ j < 8 ∧ n = 1 + 27 * k + 3 * (7 - j) + 1

/-- R81: the table of `out(s)` and `next(s)`, as steps, with how `WRITE` enters it and what `IDLE` does. Frame byte `k`
is `b k`. -/
def Obligations.SequencerStepTable : Prop :=
  (∀ s : State, s.seq = .idle → s.pending = [] → step s = .next s) ∧
  (∀ (s : State) (v : Five Half) (t : State), exec (.write v) s = .next t →
    t.seq = .tx .start ∧ t.trace = s.trace ∧ ∀ a, a < 12 → (t.frame.lookup a).isSome) ∧
  ∀ (s : State) (b : Fin 12 → Byte), (∀ k : Fin 12, s.frame.lookup k.val = some (b k)) →
    (s.seq = .tx .start → step s = .next
      { s with trace := s.trace ++ [⟨.data, false⟩], dataOut := some false, seq := .tx (.bit 0 7 .p0) }) ∧
    (∀ k j, s.seq = .tx (.bit k j .p0) → step s = .next
      { s with trace := s.trace ++ [⟨.clk, false⟩], clkOut := some false, seq := .tx (.bit k j .p1) }) ∧
    (∀ k j, s.seq = .tx (.bit k j .p1) → step s = .next
      { s with
        trace := s.trace ++ [⟨.data, (b k).getLsbD j.val⟩], dataOut := some ((b k).getLsbD j.val),
        seq := .tx (.bit k j .p2) }) ∧
    (∀ (k : Fin 12) (j j' : Fin 8), s.seq = .tx (.bit k j .p2) → j.val = j'.val + 1 → step s = .next
      { s with trace := s.trace ++ [⟨.clk, true⟩], clkOut := some true, seq := .tx (.bit k j' .p0) }) ∧
    (∀ k, s.seq = .tx (.bit k 0 .p2) → step s = .next
      { s with trace := s.trace ++ [⟨.clk, true⟩], clkOut := some true, seq := .tx (.trl k .p0) }) ∧
    (∀ k, s.seq = .tx (.trl k .p0) → step s = .next
      { s with trace := s.trace ++ [⟨.clk, false⟩], clkOut := some false, seq := .tx (.trl k .p1) }) ∧
    (∀ k, s.seq = .tx (.trl k .p1) → step s = .next
      { s with trace := s.trace ++ [⟨.data, true⟩], dataOut := some true, seq := .tx (.trl k .p2) }) ∧
    (∀ k k' : Fin 12, s.seq = .tx (.trl k .p2) → k'.val = k.val + 1 → step s = .next
      { s with trace := s.trace ++ [⟨.clk, true⟩], clkOut := some true, seq := .tx (.bit k' 7 .p0) }) ∧
    (s.seq = .tx (.trl 11 .p2) → step s = .next
      { s with trace := s.trace ++ [⟨.clk, true⟩], clkOut := some true, seq := .tx (.stop .p0) }) ∧
    (s.seq = .tx (.stop .p0) → step s = .next
      { s with trace := s.trace ++ [⟨.clk, false⟩], clkOut := some false, seq := .tx (.stop .p1) }) ∧
    (s.seq = .tx (.stop .p1) → step s = .next
      { s with trace := s.trace ++ [⟨.clk, true⟩], clkOut := some true, seq := .tx (.stop .p2) }) ∧
    (s.seq = .tx (.stop .p2) → step s = .next
      { s with trace := s.trace ++ [⟨.data, true⟩], dataOut := some true, seq := .idle, frame := [] })

/-- R83 (a), (b): in a transmission the data line changes only while the clock is low, but for START, and every clock
operation changes the clock line. -/
def Obligations.DataMovesOnlyWhileClockIsLow : Prop :=
  ∀ (s t : State) (p : TxPos), MachineInv s → s.seq = .tx p → step s = .next t →
    (t.dataOut ≠ s.dataOut → s.clkOut = some false ∨ p = .start) ∧
    (∀ b, t.trace = s.trace ++ [⟨.clk, b⟩] → s.clkOut = some (!b) ∧ t.clkOut = some b)

/-- R43, R110: new levels are in the frame of the next `WRITE`, and nothing is sent before it. -/
def Obligations.NewLevelsEnterTheNextFrame : Prop :=
  ∀ (s : State) (v : Five Half) (rgb cw : Byte), s.seq = .idle → s.constructed = true →
    ∃ (t u : State) (r c : Nibble), r.toNat = rgb.toNat % 16 ∧ c.toNat = cw.toNat % 16 ∧
      exec (.setPowerLevels rgb cw) s = .next t ∧ t.trace = s.trace ∧
      exec (.write v) t = .next u ∧ u.trace = s.trace ∧ u.frame = encodeFrame v r c

/-- R87: the same `WRITE` twice sends the same pulses twice; nothing is remembered or suppressed. -/
def Obligations.RepeatedWritesRepeatThePulses : Prop :=
  ∀ (s : State) (v : Five Half) (r c : Nibble),
    s.seq = .idle → s.constructed = true → s.rgbPl = some r → s.cwPl = some c →
      ∃ (t t' u u' : State) (ops : List LineOp), ops.length = 328 ∧
        exec (.write v) s = .next t ∧ stepN 328 t = .next u ∧ u.trace = s.trace ++ ops ∧
        exec (.write v) u = .next t' ∧ t'.frame = t.frame ∧
        stepN 328 t' = .next u' ∧ u'.trace = s.trace ++ ops ++ ops

/-! ### Line operations, bytes and frame kinds -/

/-- R74, R55: `emit`, in every state: the operation is recorded, its latch takes the level, nothing else changes. And
each line operation presented by itself, in every constructed idle state, completes as that `emit`; the precondition is
the model's choice (log entries 10, 19). -/
def Obligations.LineOperationsRecordAndLatch : Prop :=
  (∀ (s : State) (b : Bool),
    emit ⟨.data, b⟩ s = { s with trace := s.trace ++ [⟨.data, b⟩], dataOut := some b } ∧
    emit ⟨.clk, b⟩ s = { s with trace := s.trace ++ [⟨.clk, b⟩], clkOut := some b }) ∧
  ∀ s : State, s.seq = .idle → s.constructed = true →
    exec .dataLow s = .next { s with trace := s.trace ++ [⟨.data, false⟩], dataOut := some false } ∧
    exec .dataHigh s = .next { s with trace := s.trace ++ [⟨.data, true⟩], dataOut := some true } ∧
    exec .clkLow s = .next { s with trace := s.trace ++ [⟨.clk, false⟩], clkOut := some false } ∧
    exec .clkHigh s = .next { s with trace := s.trace ++ [⟨.clk, true⟩], clkOut := some true }

/-- R86, R101: a line's report changes nothing. -/
def Obligations.LineReportsAreDiscarded : Prop :=
  ∀ (a b : Config.LineReport) (op : LineOp) (s : State), emitReported a op s = emitReported b op s

/-- R77, R78, R79: `BYTE` completes in every constructed idle state: eight bit pulses, most significant bit first, and
the trailer. The precondition is the model's choice (log entries 10, 19). -/
def Obligations.ByteIsEightPulsesAndATrailer : Prop :=
  ∀ (s : State) (b : Byte), s.seq = .idle → s.constructed = true →
    exec (.byte b) s = .next
      { s with
        dataOut := some true, clkOut := some true,
        trace := s.trace ++
          [⟨.clk, false⟩, ⟨.data, b.getLsbD 7⟩, ⟨.clk, true⟩, ⟨.clk, false⟩, ⟨.data, b.getLsbD 6⟩, ⟨.clk, true⟩,
           ⟨.clk, false⟩, ⟨.data, b.getLsbD 5⟩, ⟨.clk, true⟩, ⟨.clk, false⟩, ⟨.data, b.getLsbD 4⟩, ⟨.clk, true⟩,
           ⟨.clk, false⟩, ⟨.data, b.getLsbD 3⟩, ⟨.clk, true⟩, ⟨.clk, false⟩, ⟨.data, b.getLsbD 2⟩, ⟨.clk, true⟩,
           ⟨.clk, false⟩, ⟨.data, b.getLsbD 1⟩, ⟨.clk, true⟩, ⟨.clk, false⟩, ⟨.data, b.getLsbD 0⟩, ⟨.clk, true⟩,
           ⟨.clk, false⟩, ⟨.data, true⟩, ⟨.clk, true⟩] }

/-- R46, R48, R49, R75: each frame kind, in every constructed idle state, completes with the transmission of its
frame. The precondition is the model's choice (log entry 19). -/
def Obligations.FrameKindsTransmitTheirFrame : Prop :=
  ∀ (s : State) (r c : Nibble) (p q w t u : Chan), s.seq = .idle → s.constructed = true →
    let sent (first : List Byte) (chans : List Chan) : State :=
      { s with
        dataOut := some true, clkOut := some true, frame := [],
        trace := s.trace ++ txOps (first ++ chans.flatMap
          (fun x => [BitVec.ofNat 8 (x.toNat / 256), BitVec.ofNat 8 (x.toNat % 256)])) }
    exec .standby s = .next (sent [0xC0#8, 0x00#8] [0#10, 0#10, 0#10, 0#10, 0#10]) ∧
    exec (.rgb3 r p q w) s = .next (sent [0xC8#8, BitVec.ofNat 8 (16 * r.toNat)] [p, q, w, 0#10, 0#10]) ∧
    exec (.cw2 c t u) s = .next (sent [0xD0#8, BitVec.ofNat 8 c.toNat] [0#10, 0#10, 0#10, t, u]) ∧
    exec (.all5 r c p q w t u) s =
      .next (sent [0xD8#8, BitVec.ofNat 8 (16 * r.toNat + c.toNat)] [p, q, w, t, u])

/-! ### Frames: what an instruction leaves unchanged -/

/-- The instructions that store nothing: every offset of frame space reads as before, `SEQ` and the words waiting are
unchanged; of the others each changes only what its rule names (R59, R60, R74, R78). -/
def Obligations.NonStoringInstructionsLeaveMemory : Prop :=
  ∀ (s t : State) (i : Instr),
    (i = .construct ∨ (∃ rgb cw, i = .setPowerLevels rgb cw) ∨ (∃ b, i = .byte b) ∨
      i = .dataLow ∨ i = .dataHigh ∨ i = .clkLow ∨ i = .clkHigh) →
    exec i s = .next t →
    (∀ a, t.frame.lookup a = s.frame.lookup a) ∧ t.seq = s.seq ∧ t.pending = s.pending ∧
    (i ≠ .construct → t.constructed = s.constructed) ∧
    ((∃ rgb cw, i = .setPowerLevels rgb cw) → t.trace = s.trace ∧ t.dataOut = s.dataOut ∧ t.clkOut = s.clkOut) ∧
    (i ≠ .construct → (∀ rgb cw, i ≠ .setPowerLevels rgb cw) → t.rgbPl = s.rgbPl ∧ t.cwPl = s.cwPl) ∧
    ((i = .dataLow ∨ i = .dataHigh) → t.clkOut = s.clkOut) ∧
    ((i = .clkLow ∨ i = .clkHigh) → t.dataOut = s.dataOut)

/-- `WRITE` and `WRITE_NORMALIZED` store to the offsets 0 to 11 of frame space and to nothing else, and write no
register, latch or trace entry themselves (R73, R89). -/
def Obligations.WritesStoreOnlyToTheFrame : Prop :=
  ∀ (s t : State) (i : Instr),
    ((∃ v, i = .write v) ∨ (∃ f, i = .writeNormalized f)) → s.frame.wf → exec i s = .next t →
    (∀ a, 12 ≤ a → t.frame.lookup a = s.frame.lookup a) ∧
    t.rgbPl = s.rgbPl ∧ t.cwPl = s.cwPl ∧ t.dataOut = s.dataOut ∧ t.clkOut = s.clkOut ∧
    t.constructed = s.constructed ∧ t.trace = s.trace ∧ t.pending = s.pending

/-- The frame kinds write no register and leave `SEQ` idle; frame space, empty in every idle state a run reaches,
stays empty (R73, R75). -/
def Obligations.FrameKindsLeaveRegistersAndMemory : Prop :=
  ∀ (s t : State) (i : Instr),
    (i = .standby ∨ (∃ r p q w, i = .rgb3 r p q w) ∨ (∃ c x y, i = .cw2 c x y) ∨
      (∃ r c p q w x y, i = .all5 r c p q w x y)) →
    s.frame = [] → exec i s = .next t →
    (∀ a, t.frame.lookup a = s.frame.lookup a) ∧ t.rgbPl = s.rgbPl ∧ t.cwPl = s.cwPl ∧
    t.constructed = s.constructed ∧ t.seq = s.seq ∧ t.pending = s.pending

/-! ### The step -/

/-- In `IDLE` a step runs the instruction that the first word waiting decodes to, with that word taken. -/
def Obligations.StepRunsTheDecodedWord : Prop :=
  ∀ (s : State) (p : Packet) (rest : List Packet) (i : Instr),
    s.seq = .idle → s.pending = p :: rest → decode p = .ok i → step s = exec i { s with pending := rest }

/-- In `IDLE` the block waits when no word is presented (R81), and refuses bytes that are no word. -/
def Obligations.IdleStepWaitsOrRefuses : Prop :=
  ∀ s : State, s.seq = .idle →
    (s.pending = [] → step s = .next s) ∧
    ∀ p rest e, s.pending = p :: rest → decode p = .error e → step s = .refused (.undecodable e)

/-- A word of the opcode table placed where the step fetches is what the next step runs. -/
def Obligations.FetchWordIsWhatTheNextStepRuns : Prop :=
  ∀ (s : State) (nbits w : Nat) (i : Instr), s.seq = .idle → decodeTableWord nbits w = some i →
    step (s.withFetchWord nbits w) = exec i s

/-- R85, R109: the words waiting have no influence on a transmission, and none is taken during it. R109 gives an
operation issued during another no meaning; that a word presented then waits is log entry 18, in the list of log
entry 1. -/
def Obligations.WaitingWordsDoNotTouchATransmission : Prop :=
  ∀ (s t : State) (ps : List Packet), s.seq ≠ .idle → step s = .next t →
    t.pending = s.pending ∧ step { s with pending := ps } = .next { t with pending := ps }

/-- R27: "`SEQ` never branches on data". -/
def Obligations.SequencerNeverBranchesOnData : Prop :=
  ∀ s s' t t' : State, s.seq = s'.seq → s.seq ≠ .idle → step s = .next t → step s' = .next t' → t.seq = t'.seq

/-- R28, R43: during a transmission the frame and the registers do not change. -/
def Obligations.FrameAndLevelsFixedDuringTransmission : Prop :=
  ∀ s t : State, s.seq ≠ .idle → step s = .next t →
    t.rgbPl = s.rgbPl ∧ t.cwPl = s.cwPl ∧ t.constructed = s.constructed ∧ (t.seq ≠ .idle → t.frame = s.frame) ∧
    (t.seq = .idle → t.frame = [])

/-- R21, R22: only `CONSTRUCT` and `SET_POWER_LEVELS` write the power levels. -/
def Obligations.OnlyConfigurationWritesPowerLevels : Prop :=
  ∀ s t : State, step s = .next t → (t.rgbPl ≠ s.rgbPl ∨ t.cwPl ≠ s.cwPl) →
    s.seq = .idle ∧ ∃ p rest, s.pending = p :: rest ∧
      (decode p = .ok .construct ∨ ∃ rgb cw, decode p = .ok (.setPowerLevels rgb cw))

/-! ### Invariants -/

/-- R32, R87: the invariant holds at reset and at power-on. -/
def Obligations.ResetAndPowerOnMeetTheInv : Prop :=
  MachineInv State.reset ∧ MachineInv State.powerOn ∧ TraceWhole State.reset ∧ TraceWhole State.powerOn

/-- R23, R28, R29, R30, R83, R87: every step keeps the invariant. -/
def Obligations.EveryStepKeepsTheInv : Prop :=
  ∀ s t : State, MachineInv s → step s = .next t → MachineInv t

/-- R85, R87: the trace is always made of whole operations, and of the part of the current frame that is out. -/
def Obligations.TraceStaysMadeOfWholeOperations : Prop :=
  ∀ s t : State, MachineInv s → TraceWhole s → step s = .next t → TraceWhole t

/-- R29, R111: in every state whatever, and whatever is presented, the latches go on recording the last level
commanded, and the trace only grows. -/
def Obligations.LatchesFollowTheGrowingTrace : Prop :=
  ∀ s t : State, step s = .next t →
    (LatchesFollowTrace s → LatchesFollowTrace t) ∧ ∃ ops, t.trace = s.trace ++ ops

/-- R93: no step from a state that meets the invariant faults. -/
def Obligations.NoStepFaultsUnderInv : Prop :=
  ∀ s : State, MachineInv s → ∀ f, step s ≠ .fault f

/-- R61, R93: constructed, and with every waiting word decodable, a step always answers a next state. -/
def Obligations.StepsNeverStickOnceConstructed : Prop :=
  ∀ s : State, MachineInv s → s.constructed = true → Decodable s.pending →
    ∃ t, step s = .next t ∧ t.constructed = true ∧ Decodable t.pending

/-- R114: once constructed, the operations waiting complete, in at most 329 steps each after the transmission in
progress. The list of words is log entry 1, the count of steps log entry 9, words waiting behind a transmission log
entry 18. -/
def Obligations.EveryPendingOperationCompletes : Prop :=
  ∀ s : State, MachineInv s → s.constructed = true → Decodable s.pending →
    ∃ n t, n ≤ 328 + 329 * s.pending.length ∧ stepN n s = .next t ∧
      t.seq = .idle ∧ t.pending = [] ∧ t.dataOut = some true ∧ t.clkOut = some true

/-! ### Encodings -/

/-- Every instruction is what its word decodes to, with every operand at every value. -/
def Obligations.DecodeOfEncodeIsTheInstruction : Prop :=
  ∀ i : Instr, decode (encode i) = .ok i

/-- R53: bytes decode only where they are the word of an instruction; every other pattern is rejected. -/
def Obligations.OnlyEncodedWordsDecode : Prop :=
  ∀ (p : Packet) (i : Instr), decode p = .ok i → encode i = p

/-- R54: the host command formats, as numbers. -/
def Obligations.HostCommandWordsAsNumbers : Prop :=
  number (encode .construct).bytes = 0 ∧
  (∀ rgb cw, number (encode (.setPowerLevels rgb cw)).bytes = 1 * 2 ^ 16 + rgb.toNat * 2 ^ 8 + cw.toNat) ∧
  (∀ v, number (encode (.write v)).bytes =
    2 * 2 ^ 80 + v.c0.toNat * 2 ^ 64 + v.c1.toNat * 2 ^ 48 + v.c2.toNat * 2 ^ 32 + v.c3.toNat * 2 ^ 16 +
      v.c4.toNat) ∧
  (∀ f, number (encode (.writeNormalized f)).bytes =
    3 * 2 ^ 160 + f.c0.toNat * 2 ^ 128 + f.c1.toNat * 2 ^ 96 + f.c2.toNat * 2 ^ 64 + f.c3.toNat * 2 ^ 32 +
      f.c4.toNat)

/-- A few words written out from the opcode table and from V6, V9, V16, V20 of spec/95_test_vectors.md. -/
def Obligations.WordsOfTheSpecDecode : Prop :=
  decodeTableWord 8 0b00 = some .construct ∧
  decodeTableWord 24 0x11F2C = some (.setPowerLevels 0x1F#8 0x2C#8) ∧
  decodeTableWord 88 0x203FF0000032000000000 = some (.write ⟨1023#16, 0#16, 800#16, 0#16, 0#16⟩) ∧
  decodeTableWord 168 0x33F000000000000003E8000000000000000000000 =
    some (.writeNormalized ⟨0x3F000000#32, 0#32, 0x3E800000#32, 0#32, 0#32⟩) ∧
  decodeTableWord 96 0xC82003FF0000032000000000 = some (.rgb3 2#4 1023#10 0#10 800#10) ∧
  decodeTableWord 8 0b11 = some .clkHigh ∧
  decode ⟨.line, [0b00#8]⟩ = .ok .dataLow

/-- R47, R53, R55: a frame whose `DD` is not 11, whose bit 5 is set, whose `NNN` is not 000, or with a channel field
above 1023 is no word (log entry 13). Nor is a line code or a host selector above 3, of which R54 and R55 have none: such
a byte has a padding bit set, in the byte form of log entry 12. -/
def Obligations.PatternsNeverGeneratedAreRejected : Prop :=
  (∀ (a l : Byte) (hs : List Byte) (i : Instr), decode ⟨.frame, a :: l :: hs⟩ = .ok i →
    a.toNat / 64 = 3 ∧ a.toNat / 32 % 2 = 0 ∧ a.toNat % 8 = 0 ∧ hs.length = 10 ∧
    ∀ k, k < 5 → (hs.getD (2 * k) 0#8).toNat ≤ 3) ∧
  (∀ b i, decode ⟨.line, [b]⟩ = .ok i → b.toNat < 4) ∧
  (∀ b bs i, decode ⟨.host, b :: bs⟩ = .ok i → b.toNat < 4)

/-! ### The normalized conversion -/

/-- R90: for a pattern whose value lies in [0, 1), `NORM` is `floor(x × 1024)`, below 1024. -/
def Obligations.NormOfUnitIntervalIsFloor : Prop :=
  ∀ x : Single, f32Finite x → 0 ≤ f32Value x → f32Value x < 1 →
    ((normOf x).toNat : Int) = ⌊f32Value x * 1024⌋ ∧ (normOf x).toNat < 1024

/-- R91: for `1 ≤ x < 64` `NORM` is `floor(x × 1024)`; for every `x ≥ 1` and for +infinity it is at least 1024, so
that the frame holds 1023. -/
def Obligations.NormFromOneUpIsEncodedAs1023 : Prop :=
  (∀ x : Single, f32Finite x → 1 ≤ f32Value x →
    1024 ≤ (normOf x).toNat ∧ (clamp (normOf x)).toNat = 1023 ∧
    (f32Value x < 64 → ((normOf x).toNat : Int) = ⌊f32Value x * 1024⌋)) ∧
  1024 ≤ (normOf 0x7F800000#32).toNat ∧ (clamp (normOf 0x7F800000#32)).toNat = 1023

/-- R92: for a negative value, −infinity and not a number, `NORM` is the open parameter; a claim can know nothing
more of it. -/
def Obligations.NormElsewhereIsTheOpenParameter : Prop :=
  (∀ x : Single, f32Finite x → f32Value x < 0 → normOf x = Config.normOor x) ∧
  normOf 0xFF800000#32 = Config.normOor 0xFF800000#32 ∧
  (∀ x : Single, x.extractLsb' 23 8 = 255#8 → x.extractLsb' 0 23 ≠ 0#23 → normOf x = Config.normOor x)

/-! ### Before construction -/

/-- R30: in an unconstructed state every instruction but `CONSTRUCT` is refused. That the refusal takes in the units of
output is the model's choice (log entries 10, 19). -/
def Obligations.OnlyConstructRunsBeforeConstruction : Prop :=
  ∀ (s : State) (i : Instr), s.constructed = false → i ≠ .construct →
    (s.seq = .idle → exec i s = .refused .notConstructed) ∧ (s.seq ≠ .idle → exec i s = .refused .busy)

/-- R30, R32: whatever is presented, at whatever port, a step keeps this: while `CONSTRUCTED` is 0 no register and no
latch has a value and no line operation has been issued. And `CONSTRUCTED` never goes back to 0. -/
def Obligations.NothingHasAValueBeforeConstruction : Prop :=
  ∀ s t : State, step s = .next t →
    (s.constructed = true → t.constructed = true) ∧
    ((s.constructed = false →
        s.rgbPl = none ∧ s.cwPl = none ∧ s.dataOut = none ∧ s.clkOut = none ∧ s.trace = [] ∧ s.seq = .idle) →
      t.constructed = false →
        t.rgbPl = none ∧ t.cwPl = none ∧ t.dataOut = none ∧ t.clkOut = none ∧ t.trace = [] ∧ t.seq = .idle)
end

