-- ==== Sys2Proof/Laws/Encoding.lean ====
section
/-! SUPPORT. Taking a value apart into bytes and putting it together again. -/

namespace Sys2Proof

@[simp] theorem joinBytes_high_low (v : Half) : joinBytes (highByte v) (lowByte v) = v := by
  apply BitVec.eq_of_getLsbD_eq
  intro i hi
  simp only [joinBytes, highByte, lowByte, BitVec.getLsbD_append, BitVec.getLsbD_extractLsb']
  by_cases h : i < 8
  · simp [h]
  · simp [h, show i - 8 < 8 by omega, show 8 + (i - 8) = i by omega]

@[simp] theorem highByte_join (h l : Byte) : highByte (joinBytes h l) = h := by
  ext i hi
  simp only [joinBytes, highByte, BitVec.getElem_extractLsb', BitVec.getLsbD_append]
  rw [if_neg (by omega), show 8 + i - 8 = i by omega, BitVec.getLsbD_eq_getElem hi]

@[simp] theorem lowByte_join (h l : Byte) : lowByte (joinBytes h l) = l := by
  ext i hi
  simp only [joinBytes, lowByte, BitVec.getElem_extractLsb', BitVec.getLsbD_append]
  rw [if_pos (by omega), Nat.zero_add, BitVec.getLsbD_eq_getElem hi]

theorem highByte_toNat (v : Half) : (highByte v).toNat = v.toNat / 256 := by
  have := v.isLt
  simp only [highByte, BitVec.extractLsb'_toNat, Nat.shiftRight_eq_div_pow]
  omega

theorem lowByte_toNat (v : Half) : (lowByte v).toNat = v.toNat % 256 := by
  simp [lowByte, BitVec.extractLsb'_toNat]

theorem chanField_toNat (c : Chan) : (chanField c).toNat = c.toNat := by
  have := c.isLt
  simp only [chanField, BitVec.toNat_setWidth]
  omega

@[simp] theorem chanFits_chanField (c : Chan) : chanFits (highByte (chanField c)) = true := by
  have hc := c.isLt
  have h : ((highByte (chanField c)).extractLsb' 2 6).toNat = 0 := by
    rw [BitVec.extractLsb'_toNat, highByte_toNat, chanField_toNat, Nat.shiftRight_eq_div_pow]
    omega
  simpa [chanFits] using BitVec.eq_of_toNat_eq h

@[simp] theorem chanOf_chanField (c : Chan) :
    chanOf (highByte (chanField c)) (lowByte (chanField c)) = c := by
  have hc := c.isLt
  apply BitVec.eq_of_toNat_eq
  simp only [chanOf, joinBytes_high_low, BitVec.toNat_setWidth, chanField_toNat]
  omega

@[simp] theorem modeOf_modeCode (m : Mode) : modeOf (modeCode m) = m := by cases m <;> rfl

/-- A packet's bytes as a number: one byte more. -/
theorem number_snoc (bs : List Byte) (b : Byte) : number (bs ++ [b]) = number bs * 256 + b.toNat := by
  simp [number]

theorem bytesOf_length (n w : Nat) : (bytesOf n w).length = n := by
  induction n generalizing w with
  | zero => rfl
  | succ n ih => simp [bytesOf, ih]

/-- The `n` low bytes of a number that fits them are that number. -/
theorem number_bytesOf (n w : Nat) (h : w < 256 ^ n) : number (bytesOf n w) = w := by
  induction n generalizing w with
  | zero => simp [bytesOf, number] at h ⊢; omega
  | succ n ih =>
    have : w / 256 < 256 ^ n := Nat.div_lt_of_lt_mul (by rwa [Nat.pow_succ, Nat.mul_comm] at h)
    rw [bytesOf, number_snoc, ih _ this]
    simp only [BitVec.toNat_ofNat]
    omega

/-! ### Line operation codes -/

theorem lineCode_lt (op : LineOp) : lineCode op < 4 := by
  obtain ⟨l, b⟩ := op
  cases l <;> cases b <;> decide

theorem lineOfCode_lineCode (a : Nat) (op : LineOp) : lineOfCode (a * 4 + lineCode op) = op := by
  obtain ⟨l, b⟩ := op
  cases l <;> cases b <;> simp [lineOfCode, lineCode, Nat.testBit, Nat.shiftRight_eq_div_pow] <;> omega

theorem packCodes_snoc (ops : List LineOp) (op : LineOp) :
    packCodes (ops ++ [op]) = packCodes ops * 4 + lineCode op := by
  simp [packCodes]

theorem packCodes_lt (ops : List LineOp) : packCodes ops < 4 ^ ops.length := by
  induction ops using List.reverseRecOn with
  | nil => decide
  | append_singleton ops op ih =>
    have := lineCode_lt op
    rw [packCodes_snoc, List.length_append, List.length_singleton, Nat.pow_succ]
    omega

/-- The codes of a list of line operations give the list back. -/
theorem unpackCodes_packCodes (ops : List LineOp) : unpackCodes ops.length (packCodes ops) = ops := by
  induction ops using List.reverseRecOn with
  | nil => rfl
  | append_singleton ops op ih =>
    have := lineCode_lt op
    rw [packCodes_snoc, List.length_append, List.length_singleton, unpackCodes, lineOfCode_lineCode,
      show (packCodes ops * 4 + lineCode op) / 4 = packCodes ops by omega, ih]

end Sys2Proof
end

