-- ==== Sys2Proof/Laws/Memory.lean ====
section
/-! SUPPORT. The frame buffer: a store is read back, leaves every other offset alone, and keeps the canonical form. -/

namespace Sys2Proof.Machine

@[simp] theorem Memory.lookup_nil (a : Nat) : Memory.lookup [] a = none := rfl

/-- What a buffer reads as after one byte is put into it. -/
theorem Memory.lookup_put (m : Memory) (a a' : Nat) (b : Byte) (h : (m.map Prod.fst).Pairwise (· < ·)) :
    (m.put a b).lookup a' = if a = a' then some b else m.lookup a' := by
  induction m with
  | nil => simp [Memory.put, Memory.lookup]
  | cons c rest ih =>
    obtain ⟨k, x⟩ := c
    have hr : (rest.map Prod.fst).Pairwise (· < ·) := (List.pairwise_cons.mp h).2
    simp only [Memory.put]
    split
    · simp [Memory.lookup]
    · split
      · rename_i hk; subst hk; simp only [Memory.lookup]; split <;> rfl
      · rename_i hk
        simp only [Memory.lookup, ih hr]
        split
        · rename_i hkk; subst hkk; simp [hk]
        · rfl

/-- The offsets after a put are the old ones and the new one. -/
theorem Memory.mem_put (m : Memory) (a : Nat) (b : Byte) (c : Host.Cell) (h : c ∈ m.put a b) :
    c = (a, b) ∨ c ∈ m := by
  induction m with
  | nil => simpa [Memory.put] using h
  | cons d rest ih =>
    obtain ⟨k, x⟩ := d
    simp only [Memory.put] at h
    split at h
    · simpa using h
    · split at h
      · rcases List.mem_cons.mp h with h | h
        · exact .inl h
        · exact .inr (List.mem_cons_of_mem _ h)
      · rcases List.mem_cons.mp h with h | h
        · exact .inr (h ▸ List.mem_cons_self)
        · rcases ih h with h | h
          · exact .inl h
          · exact .inr (List.mem_cons_of_mem _ h)

/-- A put keeps the rising order. -/
theorem Memory.put_rising (m : Memory) (a : Nat) (b : Byte) (h : (m.map Prod.fst).Pairwise (· < ·)) :
    ((m.put a b).map Prod.fst).Pairwise (· < ·) := by
  induction m with
  | nil => simp [Memory.put]
  | cons d rest ih =>
    obtain ⟨k, x⟩ := d
    have hc := List.pairwise_cons.mp h
    simp only [Memory.put]
    split
    · rename_i hk
      refine List.pairwise_cons.mpr ⟨fun y hy => ?_, h⟩
      rcases List.mem_cons.mp hy with rfl | hy
      · exact hk
      · exact Nat.lt_trans hk (hc.1 y hy)
    · split
      · rename_i hk; subst hk; exact h
      · refine List.pairwise_cons.mpr ⟨fun y hy => ?_, ih hc.2⟩
        obtain ⟨c, hm, rfl⟩ := List.mem_map.mp hy
        rcases Memory.mem_put rest a b c hm with rfl | hm
        · show k < a; omega
        · exact hc.1 _ (List.mem_map_of_mem hm)

/-- `MemWrite(k, 1, b)` keeps the canonical form. -/
theorem Memory.store_wf (m : Memory) (k : Fin 12) (b : Byte) (h : m.wf) : (m.store k b).wf := by
  refine ⟨Memory.put_rising m _ b h.1, fun c hc => ?_⟩
  rcases Memory.mem_put m _ b c hc with rfl | hc
  · exact k.isLt
  · exact h.2 c hc

/-- A stored byte is read back, and every other offset reads as before. -/
theorem Memory.lookup_store (m : Memory) (k : Fin 12) (b : Byte) (a : Nat) (h : m.wf) :
    (m.store k b).lookup a = if k.val = a then some b else m.lookup a :=
  Memory.lookup_put m _ a b h.1

/-- The two-byte store keeps the canonical form. -/
theorem Memory.storeChannel_wf (m : Memory) (i : Fin 5) (x : Half) (h : m.wf) : (m.storeChannel i x).wf :=
  Memory.store_wf _ _ _ (Memory.store_wf m _ _ h)

/-- The empty buffer, which is reset's, is in canonical form. -/
theorem Memory.nil_wf : Memory.wf [] := ⟨List.Pairwise.nil, fun _ h => absurd h List.not_mem_nil⟩

/-- Offsets outside frame space hold nothing. -/
theorem Memory.lookup_outside (m : Memory) (a : Nat) (h : m.wf) (ha : 12 ≤ a) : m.lookup a = none := by
  obtain ⟨-, h⟩ := h
  induction m with
  | nil => rfl
  | cons c rest ih =>
    obtain ⟨k, x⟩ := c
    have hk : k < 12 := h (k, x) List.mem_cons_self
    simp only [Memory.lookup]
    rw [if_neg (by omega)]
    exact ih (fun c hc => h c (List.mem_cons_of_mem _ hc))

/-- `ENCODE` written out: its twelve cells in order. -/
theorem encodeFrame_cells (v : Five Half) (r c : Nibble) :
    encodeFrame v r c =
      [(0, addressByte (classify v)), (1, powerByte (classify v) r c),
       (2, highByte (clamp v.c0)), (3, lowByte (clamp v.c0)), (4, highByte (clamp v.c1)), (5, lowByte (clamp v.c1)),
       (6, highByte (clamp v.c2)), (7, lowByte (clamp v.c2)), (8, highByte (clamp v.c3)), (9, lowByte (clamp v.c3)),
       (10, highByte (clamp v.c4)), (11, lowByte (clamp v.c4))] := by
  simp [encodeFrame, pack, Memory.storeChannel, Memory.store, Memory.put]

end Sys2Proof.Machine
end

