-- ==== Sys2Proof/Laws/State.lean ====
section
/-! SUPPORT. One lemma per field per update of the state, true by unfolding. -/

namespace Sys2Proof.Machine

/-! ### `State.setLevels` -/

@[simp] theorem State.setLevels_rgbPl (s : State) (r c : Nibble) : (s.setLevels r c).rgbPl = some r := rfl
@[simp] theorem State.setLevels_cwPl (s : State) (r c : Nibble) : (s.setLevels r c).cwPl = some c := rfl
@[simp] theorem State.setLevels_dataOut (s : State) (r c : Nibble) : (s.setLevels r c).dataOut = s.dataOut := rfl
@[simp] theorem State.setLevels_clkOut (s : State) (r c : Nibble) : (s.setLevels r c).clkOut = s.clkOut := rfl
@[simp] theorem State.setLevels_frame (s : State) (r c : Nibble) : (s.setLevels r c).frame = s.frame := rfl
@[simp] theorem State.setLevels_seq (s : State) (r c : Nibble) : (s.setLevels r c).seq = s.seq := rfl
@[simp] theorem State.setLevels_constructed (s : State) (r c : Nibble) : (s.setLevels r c).constructed = s.constructed := rfl
@[simp] theorem State.setLevels_trace (s : State) (r c : Nibble) : (s.setLevels r c).trace = s.trace := rfl
@[simp] theorem State.setLevels_pending (s : State) (r c : Nibble) : (s.setLevels r c).pending = s.pending := rfl

/-! ### `State.setConstructed` -/

@[simp] theorem State.setConstructed_rgbPl (s : State) : (s.setConstructed).rgbPl = s.rgbPl := rfl
@[simp] theorem State.setConstructed_cwPl (s : State) : (s.setConstructed).cwPl = s.cwPl := rfl
@[simp] theorem State.setConstructed_dataOut (s : State) : (s.setConstructed).dataOut = s.dataOut := rfl
@[simp] theorem State.setConstructed_clkOut (s : State) : (s.setConstructed).clkOut = s.clkOut := rfl
@[simp] theorem State.setConstructed_frame (s : State) : (s.setConstructed).frame = s.frame := rfl
@[simp] theorem State.setConstructed_seq (s : State) : (s.setConstructed).seq = s.seq := rfl
@[simp] theorem State.setConstructed_constructed (s : State) : (s.setConstructed).constructed = true := rfl
@[simp] theorem State.setConstructed_trace (s : State) : (s.setConstructed).trace = s.trace := rfl
@[simp] theorem State.setConstructed_pending (s : State) : (s.setConstructed).pending = s.pending := rfl

/-! ### `State.startTx` -/

@[simp] theorem State.startTx_rgbPl (s : State) (m : Memory) : (s.startTx m).rgbPl = s.rgbPl := rfl
@[simp] theorem State.startTx_cwPl (s : State) (m : Memory) : (s.startTx m).cwPl = s.cwPl := rfl
@[simp] theorem State.startTx_dataOut (s : State) (m : Memory) : (s.startTx m).dataOut = s.dataOut := rfl
@[simp] theorem State.startTx_clkOut (s : State) (m : Memory) : (s.startTx m).clkOut = s.clkOut := rfl
@[simp] theorem State.startTx_frame (s : State) (m : Memory) : (s.startTx m).frame = m := rfl
@[simp] theorem State.startTx_seq (s : State) (m : Memory) : (s.startTx m).seq = .tx .start := rfl
@[simp] theorem State.startTx_constructed (s : State) (m : Memory) : (s.startTx m).constructed = s.constructed := rfl
@[simp] theorem State.startTx_trace (s : State) (m : Memory) : (s.startTx m).trace = s.trace := rfl
@[simp] theorem State.startTx_pending (s : State) (m : Memory) : (s.startTx m).pending = s.pending := rfl

/-! ### `State.dropFrame` -/

@[simp] theorem State.dropFrame_rgbPl (s : State) : (s.dropFrame).rgbPl = s.rgbPl := rfl
@[simp] theorem State.dropFrame_cwPl (s : State) : (s.dropFrame).cwPl = s.cwPl := rfl
@[simp] theorem State.dropFrame_dataOut (s : State) : (s.dropFrame).dataOut = s.dataOut := rfl
@[simp] theorem State.dropFrame_clkOut (s : State) : (s.dropFrame).clkOut = s.clkOut := rfl
@[simp] theorem State.dropFrame_frame (s : State) : (s.dropFrame).frame = [] := rfl
@[simp] theorem State.dropFrame_seq (s : State) : (s.dropFrame).seq = s.seq := rfl
@[simp] theorem State.dropFrame_constructed (s : State) : (s.dropFrame).constructed = s.constructed := rfl
@[simp] theorem State.dropFrame_trace (s : State) : (s.dropFrame).trace = s.trace := rfl
@[simp] theorem State.dropFrame_pending (s : State) : (s.dropFrame).pending = s.pending := rfl

/-! ### `State.setPending` -/

@[simp] theorem State.setPending_rgbPl (s : State) (ps : List Packet) : (s.setPending ps).rgbPl = s.rgbPl := rfl
@[simp] theorem State.setPending_cwPl (s : State) (ps : List Packet) : (s.setPending ps).cwPl = s.cwPl := rfl
@[simp] theorem State.setPending_dataOut (s : State) (ps : List Packet) : (s.setPending ps).dataOut = s.dataOut := rfl
@[simp] theorem State.setPending_clkOut (s : State) (ps : List Packet) : (s.setPending ps).clkOut = s.clkOut := rfl
@[simp] theorem State.setPending_frame (s : State) (ps : List Packet) : (s.setPending ps).frame = s.frame := rfl
@[simp] theorem State.setPending_seq (s : State) (ps : List Packet) : (s.setPending ps).seq = s.seq := rfl
@[simp] theorem State.setPending_constructed (s : State) (ps : List Packet) : (s.setPending ps).constructed = s.constructed := rfl
@[simp] theorem State.setPending_trace (s : State) (ps : List Packet) : (s.setPending ps).trace = s.trace := rfl
@[simp] theorem State.setPending_pending (s : State) (ps : List Packet) : (s.setPending ps).pending = ps := rfl

/-! ### `State.advance` -/

@[simp] theorem State.advance_rgbPl (s : State) (p : TxPos) : (s.advance p).rgbPl = s.rgbPl := rfl
@[simp] theorem State.advance_cwPl (s : State) (p : TxPos) : (s.advance p).cwPl = s.cwPl := rfl
@[simp] theorem State.advance_dataOut (s : State) (p : TxPos) : (s.advance p).dataOut = s.dataOut := rfl
@[simp] theorem State.advance_clkOut (s : State) (p : TxPos) : (s.advance p).clkOut = s.clkOut := rfl
@[simp] theorem State.advance_frame (s : State) (p : TxPos) : (s.advance p).frame = if nextPos p = .idle then [] else s.frame := rfl
@[simp] theorem State.advance_seq (s : State) (p : TxPos) : (s.advance p).seq = nextPos p := rfl
@[simp] theorem State.advance_constructed (s : State) (p : TxPos) : (s.advance p).constructed = s.constructed := rfl
@[simp] theorem State.advance_trace (s : State) (p : TxPos) : (s.advance p).trace = s.trace := rfl
@[simp] theorem State.advance_pending (s : State) (p : TxPos) : (s.advance p).pending = s.pending := rfl

/-! ### `State.withFetchWord` -/

@[simp] theorem State.withFetchWord_rgbPl (s : State) (nbits w : Nat) : (s.withFetchWord nbits w).rgbPl = s.rgbPl := rfl
@[simp] theorem State.withFetchWord_cwPl (s : State) (nbits w : Nat) : (s.withFetchWord nbits w).cwPl = s.cwPl := rfl
@[simp] theorem State.withFetchWord_dataOut (s : State) (nbits w : Nat) : (s.withFetchWord nbits w).dataOut = s.dataOut := rfl
@[simp] theorem State.withFetchWord_clkOut (s : State) (nbits w : Nat) : (s.withFetchWord nbits w).clkOut = s.clkOut := rfl
@[simp] theorem State.withFetchWord_frame (s : State) (nbits w : Nat) : (s.withFetchWord nbits w).frame = s.frame := rfl
@[simp] theorem State.withFetchWord_seq (s : State) (nbits w : Nat) : (s.withFetchWord nbits w).seq = .idle := rfl
@[simp] theorem State.withFetchWord_constructed (s : State) (nbits w : Nat) : (s.withFetchWord nbits w).constructed = s.constructed := rfl
@[simp] theorem State.withFetchWord_trace (s : State) (nbits w : Nat) : (s.withFetchWord nbits w).trace = s.trace := rfl
@[simp] theorem State.withFetchWord_pending (s : State) (nbits w : Nat) : (s.withFetchWord nbits w).pending = tablePacket nbits w :: s.pending := rfl

/-! ### `emit` -/

@[simp] theorem emit_rgbPl (s : State) (op : LineOp) : (emit op s).rgbPl = s.rgbPl := rfl
@[simp] theorem emit_cwPl (s : State) (op : LineOp) : (emit op s).cwPl = s.cwPl := rfl
@[simp] theorem emit_dataOut (s : State) (op : LineOp) : (emit op s).dataOut = if op.line = .data then some op.level else s.dataOut := rfl
@[simp] theorem emit_clkOut (s : State) (op : LineOp) : (emit op s).clkOut = if op.line = .clk then some op.level else s.clkOut := rfl
@[simp] theorem emit_frame (s : State) (op : LineOp) : (emit op s).frame = s.frame := rfl
@[simp] theorem emit_seq (s : State) (op : LineOp) : (emit op s).seq = s.seq := rfl
@[simp] theorem emit_constructed (s : State) (op : LineOp) : (emit op s).constructed = s.constructed := rfl
@[simp] theorem emit_trace (s : State) (op : LineOp) : (emit op s).trace = s.trace ++ [op] := rfl
@[simp] theorem emit_pending (s : State) (op : LineOp) : (emit op s).pending = s.pending := rfl

end Sys2Proof.Machine
end

