-- ==== Sys2Proof/Laws/Ops.lean ====
section
/-! SUPPORT. The shared operations, each said once: what a guard answers, what a list of line operations does, what a
step is in each position of `SEQ`. -/

namespace Sys2Proof.Machine

/-! ### Guards -/

theorem State.busy_eq_false (s : State) : s.busy = false ↔ s.seq = .idle := by
  simp [State.busy]

@[simp] theorem whenIdle_of_idle {s : State} {k : Host.Outcome State Fault Refusal} (h : s.seq = .idle) :
    whenIdle s k = k := by
  simp [whenIdle, State.busy, h]

theorem whenIdle_of_busy {s : State} {k : Host.Outcome State Fault Refusal} (h : s.seq ≠ .idle) :
    whenIdle s k = .refused .busy := by
  simp [whenIdle, State.busy, h]

theorem whenReady_of_ready {s : State} {k : Host.Outcome State Fault Refusal} (h : s.seq = .idle)
    (hc : s.constructed = true) : whenReady s k = k := by
  simp [whenReady, h, hc]

theorem whenReady_of_unconstructed {s : State} {k : Host.Outcome State Fault Refusal} (h : s.seq = .idle)
    (hc : s.constructed = false) : whenReady s k = .refused .notConstructed := by
  simp [whenReady, h, hc]

theorem whenReady_of_busy {s : State} {k : Host.Outcome State Fault Refusal} (h : s.seq ≠ .idle) :
    whenReady s k = .refused .busy := whenIdle_of_busy h

/-- A guarded operation answers a next state only in a constructed idle state. -/
theorem whenReady_next {s t : State} {k : Host.Outcome State Fault Refusal} (h : whenReady s k = .next t) :
    s.seq = .idle ∧ s.constructed = true ∧ k = .next t := by
  unfold whenReady whenIdle at h
  split at h
  · cases h
  · rename_i hb
    split at h
    · exact ⟨(State.busy_eq_false s).mp (by simpa using hb), by assumption, h⟩
    · cases h

/-- An idle-guarded operation answers a next state only in an idle state. -/
theorem whenIdle_next {s t : State} {k : Host.Outcome State Fault Refusal} (h : whenIdle s k = .next t) :
    s.seq = .idle ∧ k = .next t := by
  unfold whenIdle at h
  split at h
  · cases h
  · rename_i hb
    exact ⟨(State.busy_eq_false s).mp (by simpa using hb), h⟩

theorem withLevels_next {s t : State} {k : Nibble → Nibble → Host.Outcome State Fault Refusal}
    (h : withLevels s k = .next t) : ∃ r c, s.rgbPl = some r ∧ s.cwPl = some c ∧ k r c = .next t := by
  unfold withLevels at h
  split at h
  · cases h
  · cases h
  · rename_i r c hr hc
    exact ⟨r, c, hr, hc, h⟩

theorem withLevels_of_some {s : State} {k : Nibble → Nibble → Host.Outcome State Fault Refusal} {r c : Nibble}
    (hr : s.rgbPl = some r) (hc : s.cwPl = some c) : withLevels s k = k r c := by
  simp [withLevels, hr, hc]

/-! ### Line operations -/

@[simp] theorem emitAll_nil (s : State) : emitAll [] s = s := rfl

@[simp] theorem emitAll_cons (op : LineOp) (ops : List LineOp) (s : State) :
    emitAll (op :: ops) s = emitAll ops (emit op s) := rfl

theorem emitAll_append (a b : List LineOp) (s : State) : emitAll (a ++ b) s = emitAll b (emitAll a s) :=
  List.foldl_append

theorem lastLevel_snoc (l : Line) (ops : List LineOp) (op : LineOp) :
    lastLevel l (ops ++ [op]) = if op.line = l then some op.level else lastLevel l ops := by
  unfold lastLevel
  by_cases h : op.line = l <;> simp [List.filter_append, h]

/-- The last level in two lists one after the other. -/
theorem lastLevel_append (l : Line) (a b : List LineOp) :
    lastLevel l (a ++ b) = (lastLevel l b).or (lastLevel l a) := by
  unfold lastLevel
  cases h : (b.filter (fun op => op.line = l)).getLast? with
  | none => simp [List.filter_append, h]
  | some x => simp [List.filter_append, h]

/-- The level a latch has after some operations, from the level it had before. -/
def latchAfter (l : Line) (before : Option Bool) (ops : List LineOp) : Option Bool :=
  ops.foldl (fun o op => if op.line = l then some op.level else o) before

/-- Everything `emitAll` does: the trace grows by the operations, each latch follows its line. -/
theorem emitAll_eq (ops : List LineOp) (s : State) :
    emitAll ops s = { s with
      trace := s.trace ++ ops
      dataOut := latchAfter .data s.dataOut ops
      clkOut := latchAfter .clk s.clkOut ops } := by
  induction ops generalizing s with
  | nil => simp [latchAfter]
  | cons op ops ih =>
    rw [emitAll_cons, ih]
    simp [latchAfter, emit, emitReported]

theorem latchAfter_append (l : Line) (o : Option Bool) (a b : List LineOp) :
    latchAfter l o (a ++ b) = latchAfter l (latchAfter l o a) b := List.foldl_append

/-- The last two operations of every transmission leave both lines high. -/
theorem latchAfter_txOps (l : Line) (o : Option Bool) (bs : List Byte) :
    latchAfter l o (txOps bs) = some true := by
  cases l <;> simp [txOps, stopOps, latchAfter]

/-- The latches follow the trace through one line operation. -/
theorem emit_latches {s : State} (op : LineOp) (h : LatchesFollowTrace s) : LatchesFollowTrace (emit op s) := by
  obtain ⟨hd, hc⟩ := h
  refine ⟨?_, ?_⟩ <;> simp [lastLevel_snoc, hd, hc]

theorem emitAll_latches {s : State} (ops : List LineOp) (h : LatchesFollowTrace s) :
    LatchesFollowTrace (emitAll ops s) := by
  induction ops generalizing s with
  | nil => exact h
  | cons op ops ih => exact ih (emit_latches op h)

/-- Line operations presented by themselves, in a state that accepts them. -/
theorem drive_of_ready {s : State} (ops : List LineOp) (h : s.seq = .idle) (hc : s.constructed = true) :
    drive ops s = .next { s with
      trace := s.trace ++ ops
      dataOut := latchAfter .data s.dataOut ops
      clkOut := latchAfter .clk s.clkOut ops } := by
  rw [drive, whenReady_of_ready h hc, emitAll_eq]

/-- A whole transmission taken as one step, in a state that accepts it. -/
theorem transmit_of_ready {s : State} (bs : List Byte) (h : s.seq = .idle) (hc : s.constructed = true) :
    transmit bs s = .next { s with
      trace := s.trace ++ txOps bs
      dataOut := some true
      clkOut := some true
      frame := [] } := by
  rw [transmit, whenReady_of_ready h hc, emitAll_eq, latchAfter_txOps, latchAfter_txOps]; rfl

/-- Every instruction but `CONSTRUCT` answers a next state only in a constructed idle state (R61). -/
theorem exec_next_ready {i : Instr} {s t : State} (hi : i ≠ .construct) (h : exec i s = .next t) :
    s.seq = .idle ∧ s.constructed = true := by
  cases i
  case construct => exact absurd rfl hi
  all_goals exact ⟨(whenReady_next h).1, (whenReady_next h).2.1⟩

/-- Every instruction but `CONSTRUCT` is refused in an idle unconstructed state (R30). -/
theorem exec_of_unconstructed {i : Instr} {s : State} (hi : i ≠ .construct) (h : s.seq = .idle)
    (hc : s.constructed = false) : exec i s = .refused .notConstructed := by
  cases i
  case construct => exact absurd rfl hi
  all_goals exact whenReady_of_unconstructed h hc

/-- Every instruction is refused while a transmission is in progress (R61, R109). -/
theorem exec_of_busy (i : Instr) {s : State} (h : s.seq ≠ .idle) : exec i s = .refused .busy := by
  cases i
  case construct => exact whenIdle_of_busy h
  all_goals exact whenReady_of_busy h

/-! ### The sequencer and the step -/

/-- A step in a transmission: one line operation, then `SEQ` moves on. -/
theorem step_tx {s : State} {p : TxPos} {op : LineOp} (h : s.seq = .tx p) (ho : lineAt p s.frame = .ok op) :
    step s = .next ((emit op s).advance p) := by
  simp [step, h, txStep, ho]

/-- All that a step in a transmission can answer. -/
theorem step_tx_cases {s : State} {p : TxPos} (h : s.seq = .tx p) :
    (∃ op, lineAt p s.frame = .ok op ∧ step s = .next ((emit op s).advance p)) ∨
    (∃ f, lineAt p s.frame = .error f ∧ step s = .fault f) := by
  cases ho : lineAt p s.frame with
  | ok op => exact .inl ⟨op, rfl, step_tx h ho⟩
  | error f => exact .inr ⟨f, rfl, by simp [step, h, txStep, ho]⟩

/-- All that a step in `IDLE` can answer with a next state. -/
theorem step_idle_next {s t : State} (h : s.seq = .idle) (hs : step s = .next t) :
    (s.pending = [] ∧ t = s) ∨
    ∃ p rest i, s.pending = p :: rest ∧ decode p = .ok i ∧ exec i (s.setPending rest) = .next t := by
  simp only [step, h, idleStep] at hs
  split at hs
  · rename_i hp; cases hs; exact .inl ⟨hp, rfl⟩
  · rename_i p rest hp
    split at hs
    · rename_i i hi; exact .inr ⟨p, rest, i, hp, hi, hs⟩
    · cases hs

/-- `stepN` of a sum. -/
theorem stepN_add (m n : Nat) {s t : State} (h : stepN m s = .next t) : stepN (m + n) s = stepN n t := by
  induction m generalizing s with
  | zero => cases h; simp
  | succ m ih =>
    rw [Nat.succ_add]
    simp only [stepN] at h ⊢
    split at h
    · exact ih h
    · cases h
    · cases h

end Sys2Proof.Machine
end

