-- ==== Sys2Proof/Laws/PerInstr.lean ====
section
/-! SUPPORT. Families of statements made per instruction. `Layout`: the word of an instruction stands at the port of its
format and has that format's width, in whole bytes (spec/30_encoding.md R45). -/

namespace Sys2Proof.Laws.Layout

/-- The port of an instruction's format. -/
def portOf : Instr → Port
  | .construct => .host
  | .setPowerLevels _ _ => .host
  | .write _ => .host
  | .writeNormalized _ => .host
  | .standby => .frame
  | .rgb3 _ _ _ _ => .frame
  | .cw2 _ _ _ => .frame
  | .all5 _ _ _ _ _ _ _ => .frame
  | .byte _ => .wire
  | .dataLow => .line
  | .dataHigh => .line
  | .clkLow => .line
  | .clkHigh => .line

/-- The width the opcode table gives an instruction's row, in bits. -/
def widthOf : Instr → Nat
  | .construct => 2
  | .setPowerLevels _ _ => 18
  | .write _ => 82
  | .writeNormalized _ => 162
  | .standby => 96
  | .rgb3 _ _ _ _ => 96
  | .cw2 _ _ _ => 96
  | .all5 _ _ _ _ _ _ _ => 96
  | .byte _ => 54
  | .dataLow => 2
  | .dataHigh => 2
  | .clkLow => 2
  | .clkHigh => 2

/-- The word of `i` is at its format's port and as long as its format. -/
def Statement (i : Instr) : Prop :=
  (encode i).port = portOf i ∧ (encode i).bytes.length = (widthOf i + 7) / 8

theorem construct : Statement .construct := ⟨rfl, rfl⟩
theorem setPowerLevels (rgb cw : Byte) : Statement (.setPowerLevels rgb cw) := by
  simp [Statement, encode, portOf, widthOf]
theorem write (v : Five Half) : Statement (.write v) := by
  simp [Statement, encode, portOf, widthOf]
theorem writeNormalized (f : Five Single) : Statement (.writeNormalized f) := by
  simp [Statement, encode, portOf, widthOf, singleBytes]
theorem standby : Statement .standby := ⟨rfl, rfl⟩
theorem rgb3 (r : Nibble) (p q s : Chan) : Statement (.rgb3 r p q s) := by
  simp [Statement, encode, portOf, widthOf, frameBytes, chanBytes]
theorem cw2 (c : Nibble) (t u : Chan) : Statement (.cw2 c t u) := by
  simp [Statement, encode, portOf, widthOf, frameBytes, chanBytes]
theorem all5 (r c : Nibble) (p q s t u : Chan) : Statement (.all5 r c p q s t u) := by
  simp [Statement, encode, portOf, widthOf, frameBytes, chanBytes]
theorem byte (b : Byte) : Statement (.byte b) := by simp [Statement, encode, portOf, widthOf, bytesOf_length]
theorem dataLow : Statement .dataLow := ⟨rfl, rfl⟩
theorem dataHigh : Statement .dataHigh := ⟨rfl, rfl⟩
theorem clkLow : Statement .clkLow := ⟨rfl, rfl⟩
theorem clkHigh : Statement .clkHigh := ⟨rfl, rfl⟩

end Sys2Proof.Laws.Layout
end

