-- ==== Sys2Proof/Laws/Transmission.lean ====
section
/-! SUPPORT. The transmission as a list of operations, and the sequencer's positions in it: `next` raises a position's
number by one, `out` is the operation of that number. -/

namespace Sys2Proof.Machine

@[simp] theorem byteOps_length (b : Byte) : (byteOps b).length = 27 := by simp [byteOps, pulse, trailerOps]

@[simp] theorem flatMap_byteOps_length (bs : List Byte) : (bs.flatMap byteOps).length = 27 * bs.length := by
  induction bs with
  | nil => rfl
  | cons b bs ih => simp [List.flatMap_cons, ih]; omega

theorem txOps_length (bs : List Byte) : (txOps bs).length = 4 + 27 * bs.length := by
  simp [txOps, startOps, stopOps]; omega

/-- Operation `r` of byte `k`. -/
theorem flatMap_byteOps_get (bs : List Byte) (k r : Nat) (b : Byte) (hk : bs[k]? = some b) (hr : r < 27) :
    (bs.flatMap byteOps)[27 * k + r]? = (byteOps b)[r]? := by
  induction bs generalizing k with
  | nil => simp at hk
  | cons c bs ih =>
    rw [List.flatMap_cons]
    cases k with
    | zero =>
      simp only [List.getElem?_cons_zero, Option.some.injEq] at hk
      subst hk
      rw [List.getElem?_append_left (by simpa using hr)]
      simp
    | succ k =>
      rw [List.getElem?_append_right (by simp; omega), byteOps_length,
        show 27 * (k + 1) + r - 27 = 27 * k + r by omega]
      exact ih k (by simpa using hk)

/-- Byte `k` occupies operations `1 + 27k` to `27 + 27k` (R82). -/
theorem txOps_get_byte (bs : List Byte) (k r : Nat) (b : Byte) (hk : bs[k]? = some b) (hr : r < 27) :
    (txOps bs)[1 + 27 * k + r]? = (byteOps b)[r]? := by
  have hlt : k < bs.length := (List.getElem?_eq_some_iff.mp hk).1
  rw [txOps, List.append_assoc, List.getElem?_append_right (by simp [startOps]; omega),
    show 1 + 27 * k + r - startOps.length = 27 * k + r by simp [startOps]; omega,
    List.getElem?_append_left (by simp; omega)]
  exact flatMap_byteOps_get bs k r b hk hr

/-- The last three operations (R80). -/
theorem txOps_get_stop (bs : List Byte) (r : Nat) : (txOps bs)[1 + 27 * bs.length + r]? = stopOps[r]? := by
  rw [txOps, List.getElem?_append_right (by simp [startOps]; omega)]
  congr 1
  simp [startOps]; omega

/-! ### `next(s)` -/

@[simp] theorem nextPos_start : nextPos .start = .tx (.bit 0 7 .p0) := rfl
@[simp] theorem nextPos_bit_p0 (k : Fin 12) (j : Fin 8) : nextPos (.bit k j .p0) = .tx (.bit k j .p1) := rfl
@[simp] theorem nextPos_bit_p1 (k : Fin 12) (j : Fin 8) : nextPos (.bit k j .p1) = .tx (.bit k j .p2) := rfl
theorem nextPos_bit_p2 (k : Fin 12) (j : Fin 8) (h : 0 < j.val) :
    nextPos (.bit k j .p2) = .tx (.bit k ⟨j.val - 1, by omega⟩ .p0) := if_pos h
theorem nextPos_bit_p2_last (k : Fin 12) (j : Fin 8) (h : ¬ 0 < j.val) :
    nextPos (.bit k j .p2) = .tx (.trl k .p0) := if_neg h
@[simp] theorem nextPos_trl_p0 (k : Fin 12) : nextPos (.trl k .p0) = .tx (.trl k .p1) := rfl
@[simp] theorem nextPos_trl_p1 (k : Fin 12) : nextPos (.trl k .p1) = .tx (.trl k .p2) := rfl
theorem nextPos_trl_p2 (k : Fin 12) (h : k.val < 11) :
    nextPos (.trl k .p2) = .tx (.bit ⟨k.val + 1, by omega⟩ 7 .p0) := dif_pos h
theorem nextPos_trl_p2_last (k : Fin 12) (h : ¬ k.val < 11) : nextPos (.trl k .p2) = .tx (.stop .p0) := dif_neg h
@[simp] theorem nextPos_stop_p0 : nextPos (.stop .p0) = .tx (.stop .p1) := rfl
@[simp] theorem nextPos_stop_p1 : nextPos (.stop .p1) = .tx (.stop .p2) := rfl
@[simp] theorem nextPos_stop_p2 : nextPos (.stop .p2) = .idle := rfl

theorem posIndex_lt (p : TxPos) : posIndex p < 328 := by
  rcases p with _ | ⟨k, j, p⟩ | ⟨k, p⟩ | p <;> (try cases p) <;> simp [posIndex, phaseIndex] <;> omega

/-- `next` raises the number of a position by one, and leaves the transmission only after the last. -/
theorem nextPos_index (p : TxPos) :
    (nextPos p = .idle ∧ posIndex p = 327) ∨ ∃ q, nextPos p = .tx q ∧ posIndex q = posIndex p + 1 := by
  rcases p with _ | ⟨k, j, p⟩ | ⟨k, p⟩ | p
  · exact .inr ⟨_, rfl, rfl⟩
  · cases p
    · exact .inr ⟨_, rfl, rfl⟩
    · exact .inr ⟨_, rfl, rfl⟩
    · by_cases h : 0 < j.val
      · refine .inr ⟨_, nextPos_bit_p2 k j h, ?_⟩
        simp only [posIndex, phaseIndex]; omega
      · refine .inr ⟨_, nextPos_bit_p2_last k j h, ?_⟩
        simp only [posIndex, phaseIndex]; omega
  · cases p
    · exact .inr ⟨_, rfl, rfl⟩
    · exact .inr ⟨_, rfl, rfl⟩
    · by_cases h : k.val < 11
      · refine .inr ⟨_, nextPos_trl_p2 k h, ?_⟩
        simp only [posIndex, phaseIndex, show (7 : Fin 8).val = 7 from rfl]; omega
      · refine .inr ⟨_, nextPos_trl_p2_last k h, ?_⟩
        simp only [posIndex, phaseIndex]; omega
  · cases p
    · exact .inr ⟨_, rfl, rfl⟩
    · exact .inr ⟨_, rfl, rfl⟩
    · exact .inl ⟨rfl, rfl⟩

/-! ### `out(s)` -/

theorem lineAt_bit_p1 {m : Memory} {k : Fin 12} {b : Byte} (j : Fin 8) (h : m.lookup k.val = some b) :
    lineAt (.bit k j .p1) m = .ok ⟨.data, b.getLsbD j.val⟩ := by
  simp [lineAt, readFrame, h]

/-- `out` of a position is the operation of its number, where the buffer holds the bytes `bs`. -/
theorem lineAt_eq_txOps (p : TxPos) (m : Memory) (bs : List Byte) (hl : bs.length = 12)
    (h : ∀ k : Fin 12, m.lookup k.val = bs[k.val]?) :
    ∃ op, lineAt p m = .ok op ∧ (txOps bs)[posIndex p]? = some op := by
  rcases p with _ | ⟨k, j, p⟩ | ⟨k, p⟩ | p
  · exact ⟨_, rfl, rfl⟩
  · obtain ⟨b, hb⟩ : ∃ b, bs[k.val]? = some b := ⟨_, List.getElem?_eq_getElem (by omega)⟩
    have hi : posIndex (.bit k j p) = 1 + 27 * k.val + (3 * (7 - j.val) + phaseIndex p) := by
      simp only [posIndex]; omega
    have hr : 3 * (7 - j.val) + phaseIndex p < 27 := by cases p <;> simp only [phaseIndex] <;> omega
    rw [hi, txOps_get_byte bs _ _ b hb hr]
    cases p
    · exact ⟨_, rfl, by fin_cases j <;> rfl⟩
    · exact ⟨_, lineAt_bit_p1 j ((h k).trans hb), by fin_cases j <;> rfl⟩
    · exact ⟨_, rfl, by fin_cases j <;> rfl⟩
  · obtain ⟨b, hb⟩ : ∃ b, bs[k.val]? = some b := ⟨_, List.getElem?_eq_getElem (by omega)⟩
    have hi : posIndex (.trl k p) = 1 + 27 * k.val + (24 + phaseIndex p) := by simp only [posIndex]; omega
    have hr : 24 + phaseIndex p < 27 := by cases p <;> simp [phaseIndex]
    rw [hi, txOps_get_byte bs _ _ b hb hr]
    cases p <;> exact ⟨_, rfl, rfl⟩
  · have hi : posIndex (.stop p) = 1 + 27 * bs.length + phaseIndex p := by simp only [posIndex]; omega
    rw [hi, txOps_get_stop]
    cases p <;> exact ⟨_, rfl, rfl⟩

/-- Reading an encoded frame is reading its content. -/
theorem encodeFrame_lookup (v : Five Half) (r c : Nibble) (k : Fin 12) :
    (encodeFrame v r c).lookup k.val = (frameContent (encodeFrame v r c))[k.val]? := by
  rw [encodeFrame_cells]
  fin_cases k <;> rfl

theorem frameContent_length (v : Five Half) (r c : Nibble) : (frameContent (encodeFrame v r c)).length = 12 := by
  rw [encodeFrame_cells]; rfl

end Sys2Proof.Machine
end

