-- ==== Sys2Proof/Tests/Slice0.lean ====
section
/-! SUPPORT. The model's own tests: the words of spec/opcode_table.json and the vectors of spec/95_test_vectors.md, and
for every statement with hypotheses a concrete case that meets them. -/

namespace Sys2Proof.Tests

open Sys2Proof Sys2Proof.Machine

/-! ### Well-formedness: each check refuses an ill-formed term -/

theorem test_wf_refuses_rgb3_without_channel : (Instr.rgb3 2#4 0#10 0#10 0#10).wf = false := by decide
theorem test_wf_refuses_cw2_without_channel : (Instr.cw2 4#4 0#10 0#10).wf = false := by decide
theorem test_wf_refuses_all5_without_rgb : (Instr.all5 2#4 4#4 0#10 0#10 0#10 1#10 0#10).wf = false := by decide
theorem test_wf_refuses_all5_without_cw : (Instr.all5 2#4 4#4 1#10 0#10 0#10 0#10 0#10).wf = false := by decide

/-! ### Decoding: every constructor's word, written out from spec/30_encoding.md and spec/95_test_vectors.md -/

/-- R54, H0. -/
theorem test_decode_construct : decode ⟨.host, [0b00000000#8]⟩ = .ok .construct := by decide
/-- V6: `0x11F2C`. -/
theorem test_decode_set_power_levels :
    decode ⟨.host, [0b00000001#8, 0x1F#8, 0x2C#8]⟩ = .ok (.setPowerLevels 0x1F#8 0x2C#8) := by decide
/-- V17: `0x2000000000000000507D0`. -/
theorem test_decode_write :
    decode ⟨.host, [2#8, 0#8, 0#8, 0#8, 0#8, 0#8, 0#8, 0#8, 5#8, 0x07#8, 0xD0#8]⟩ =
      .ok (.write ⟨0#16, 0#16, 0#16, 5#16, 2000#16⟩) := by decide
/-- V20. -/
theorem test_decode_write_normalized :
    decodeTableWord 168 0x33F000000000000003E8000000000000000000000 =
      some (.writeNormalized ⟨0x3F000000#32, 0#32, 0x3E800000#32, 0#32, 0#32⟩) := by decide
/-- V9, row 1. -/
theorem test_decode_standby : decodeTableWord 96 0xC00000000000000000000000 = some .standby := by decide
/-- V9, row `[1023, 0, 800, 0, 0]`. -/
theorem test_decode_rgb3 :
    decodeTableWord 96 0xC82003FF0000032000000000 = some (.rgb3 2#4 1023#10 0#10 800#10) := by decide
/-- V9, row `[0, 0, 0, 5, 2000]` at 0xF, 0xC. -/
theorem test_decode_cw2 : decodeTableWord 96 0xD00C000000000000000503FF = some (.cw2 0xC#4 5#10 1023#10) := by decide
/-- V9, row `[1, 2, 3, 4, 5]`. -/
theorem test_decode_all5 :
    decodeTableWord 96 0xD82400010002000300040005 =
      some (.all5 2#4 4#4 1#10 2#10 3#10 4#10 5#10) := by decide
/-- R52, V10: 0xC8 is `cDC cDC cdC cdC cDC cdC cdC cdC cDC`; `cDC` is 100111, `cdC` is 100011. -/
theorem test_decode_byte :
    decodeTableWord 56 0b100111100111100011100011100111100011100011100011100111 = some (.byte 0xC8#8) := by decide
/-- R55. -/
theorem test_decode_line_operations :
    decode ⟨.line, [0b00#8]⟩ = .ok .dataLow ∧ decode ⟨.line, [0b01#8]⟩ = .ok .dataHigh ∧
    decode ⟨.line, [0b10#8]⟩ = .ok .clkLow ∧ decode ⟨.line, [0b11#8]⟩ = .ok .clkHigh := by decide
/-- R54, R55: the one table word two rows share (log entry 11). -/
theorem test_decode_shared_table_word : decodeTableWord 8 0 = some .construct := by decide

/-- R53: `DD` = 10, bit 5 set, `NNN` = 001, a channel of 1024. -/
theorem test_decode_rejects_frame_patterns :
    decode ⟨.frame, [0x88#8, 0x20#8, 0#8, 1#8, 0#8, 0#8, 0#8, 0#8, 0#8, 0#8, 0#8, 0#8]⟩ = .error .classMarker ∧
    decode ⟨.frame, [0xE8#8, 0x20#8, 0#8, 1#8, 0#8, 0#8, 0#8, 0#8, 0#8, 0#8, 0#8, 0#8]⟩ = .error .reservedBit ∧
    decode ⟨.frame, [0xC9#8, 0x20#8, 0#8, 1#8, 0#8, 0#8, 0#8, 0#8, 0#8, 0#8, 0#8, 0#8]⟩ = .error .outputOffset ∧
    decode ⟨.frame, [0xC8#8, 0x20#8, 4#8, 0#8, 0#8, 0#8, 0#8, 0#8, 0#8, 0#8, 0#8, 0#8]⟩ = .error .channelWidth := by
  decide
/-- The fields the opcode table's rows fix at 0. -/
theorem test_decode_rejects_frame_conditions :
    decode ⟨.frame, [0xC8#8, 0x24#8, 0#8, 1#8, 0#8, 0#8, 0#8, 0#8, 0#8, 0#8, 0#8, 0#8]⟩ = .error .inactiveLevel ∧
    decode ⟨.frame, [0xC8#8, 0x20#8, 0#8, 1#8, 0#8, 0#8, 0#8, 0#8, 0#8, 1#8, 0#8, 0#8]⟩ = .error .inactiveChannel := by
  decide
/-- The table's `match` words, all free fields 0: "decode by FRAME[0] alone". -/
theorem test_decode_frame_match_words :
    decodeTableWord 96 0xC80000000000000000000000 = some (.rgb3 0#4 0#10 0#10 0#10) ∧
    decodeTableWord 96 0xD00000000000000000000000 = some (.cw2 0#4 0#10 0#10) ∧
    decodeTableWord 96 0xD80000000000000000000000 = some (.all5 0#4 0#4 0#10 0#10 0#10 0#10 0#10) := by decide
theorem test_decode_rejects_lengths_and_padding :
    decode ⟨.host, [1#8, 0#8]⟩ = .error .wrongLength ∧ decode ⟨.host, [4#8]⟩ = .error .padding ∧
    decode ⟨.line, [4#8]⟩ = .error .padding ∧ decode ⟨.wire, [0#8]⟩ = .error .wrongLength ∧
    decode ⟨.wire, [0#8, 0#8, 0#8, 0#8, 0#8, 0#8, 0#8]⟩ = .error .pulseShape := by decide

/-! ### Meanings -/

/-- A constructed idle state with the default levels. -/
def ready : State where
  rgbPl := some 2#4
  cwPl := some 4#4
  dataOut := some true
  clkOut := some true
  frame := []
  seq := .idle
  constructed := true
  trace := constructOps Config.constructOrder
  pending := []

/-- `ready` with another history, so that a test sees what is appended. -/
def blank : State := { ready with trace := [] }

/-- The next state, where there is one. -/
def nextOf : Host.Outcome State Fault Refusal → Option State
  | .next s => some s
  | .fault _ => none
  | .refused _ => none

/-- V5, row 3: the levels return to the defaults. -/
theorem test_construct_restores_defaults :
    (nextOf (exec .construct { blank with rgbPl := some 0xF#4, cwPl := some 0xC#4 })).map
      (fun t => (t.rgbPl, t.cwPl)) = some (some 2#4, some 4#4) := by decide
/-- V5: the trace is `DC` or `CD`. -/
theorem test_construct_trace :
    constructOps .dataFirst = [⟨.data, true⟩, ⟨.clk, true⟩] ∧ constructOps .clkFirst = [⟨.clk, true⟩, ⟨.data, true⟩] := by
  decide
/-- V2: `set_power_levels(0x1F, 0x2C)` stores 0xF and 0xC. -/
theorem test_set_power_levels_masks :
    (nextOf (exec (.setPowerLevels 0x1F#8 0x2C#8) blank)).map (fun t => (t.rgbPl, t.cwPl, t.trace)) =
      some (some 0xF#4, some 0xC#4, []) := by decide
/-- V6, rows 0xF0, 0x0F. -/
theorem test_set_power_levels_drops_high_nibble :
    (nextOf (exec (.setPowerLevels 0xF0#8 0x0F#8) blank)).map (fun t => (t.rgbPl, t.cwPl)) =
      some (some 0x0#4, some 0xF#4) := by decide
/-- V1: the source's example frame. -/
theorem test_write_example_frame :
    (nextOf (exec (.write ⟨1023#16, 0#16, 800#16, 0#16, 0#16⟩) blank)).map (fun t => (frameContent t.frame, t.seq)) =
      some ([0xC8#8, 0x20#8, 0x03#8, 0xFF#8, 0#8, 0#8, 0x03#8, 0x20#8, 0#8, 0#8, 0#8, 0#8], .tx .start) := by decide
/-- V9: `[0, 0, 0, 5, 2000]` at 0xF, 0xC. -/
theorem test_write_cw_clamped :
    frameContent (encodeFrame ⟨0#16, 0#16, 0#16, 5#16, 2000#16⟩ 0xF#4 0xC#4) =
      [0xD0#8, 0x0C#8, 0#8, 0#8, 0#8, 0#8, 0#8, 0#8, 0#8, 5#8, 0x03#8, 0xFF#8] := by decide
/-- V20, step 2. -/
theorem test_write_normalized_example :
    (nextOf (exec (.writeNormalized ⟨0x3F000000#32, 0#32, 0x3E800000#32, 0#32, 0#32⟩) blank)).map
      (fun t => frameContent t.frame) =
      some [0xC8#8, 0x20#8, 0x02#8, 0#8, 0#8, 0#8, 0x01#8, 0#8, 0#8, 0#8, 0#8, 0#8] := by decide
/-- V11, in range: largest below 2^-10, 2^-10, nearest to 0.1, largest below 1.0, −0.0, nearest to 63.999. -/
theorem test_norm_vectors :
    [0x3A7FFFFF#32, 0x3A800000#32, 0x3DCCCCCD#32, 0x3F7FFFFF#32, 0x80000000#32, 0x427FFEFA#32].map normOf =
      [0#16, 1#16, 102#16, 1023#16, 0#16, 65534#16] := by decide
/-- V7. -/
theorem test_clamp_vectors :
    [0#16, 1023#16, 1024#16, 2000#16, 65535#16].map clamp = [0#16, 1023#16, 1023#16, 1023#16, 1023#16] := by decide
/-- V10, 0x04: `cdC cdC cdC cdC cdC cDC cdC cdC cDC` sampled at the rising clock is `000001001`. -/
theorem test_byte_sampled :
    (nextOf (exec (.byte 0x04#8) blank)).map (fun t => risingLevels true true t.trace) =
      some [false, false, false, false, false, true, false, false, true] := by decide
/-- V9, V13: the frame kind `RGB3` sends 328 operations, and leaves no frame. -/
theorem test_rgb3_sends_328 :
    (nextOf (exec (.rgb3 2#4 1023#10 0#10 800#10) blank)).map (fun t => (t.trace.length, t.frame)) =
      some (328, []) := by decide +kernel
/-- V14: the standby transmission has 95 `d` and 15 `D`. -/
theorem test_standby_letter_counts :
    (nextOf (exec .standby blank)).map (fun t => (t.trace.count ⟨.data, false⟩, t.trace.count ⟨.data, true⟩)) =
      some (95, 15) := by decide +kernel
/-- V15: the largest frame has 35 `d` and 75 `D`. -/
theorem test_all5_letter_counts :
    (nextOf (exec (.all5 0xF#4 0xF#4 1023#10 1023#10 1023#10 1023#10 1023#10) blank)).map
      (fun t => (t.trace.count ⟨.data, false⟩, t.trace.count ⟨.data, true⟩)) = some (35, 75) := by decide +kernel
/-- V17: `D0 0C … 05 03 FF` sampled; here its first 18 levels. -/
theorem test_cw2_sampled :
    (nextOf (exec (.cw2 0xC#4 5#10 1023#10) blank)).map (fun t => (risingLevels true true t.trace).take 18) =
      some [true, true, false, true, false, false, false, false, true,
            false, false, false, false, true, true, false, false, true] := by decide +kernel
/-- R74. -/
theorem test_data_low : (nextOf (exec .dataLow blank)).map (fun t => (t.trace, t.dataOut, t.clkOut)) =
    some ([⟨.data, false⟩], some false, some true) := by decide
theorem test_data_high_repeats_level : (nextOf (exec .dataHigh blank)).map (fun t => (t.trace, t.dataOut)) =
    some ([⟨.data, true⟩], some true) := by decide
theorem test_clk_low : (nextOf (exec .clkLow blank)).map (fun t => (t.trace, t.dataOut, t.clkOut)) =
    some ([⟨.clk, false⟩], some true, some false) := by decide
theorem test_clk_high : (nextOf (exec .clkHigh { blank with clkOut := some false })).map (fun t => (t.trace, t.clkOut)) =
    some ([⟨.clk, true⟩], some true) := by decide
/-- R30: nothing but `CONSTRUCT` runs before it. -/
theorem test_units_refused_before_construct :
    exec (.byte 0x04#8) State.powerOn = .refused .notConstructed ∧
    exec .dataLow State.powerOn = .refused .notConstructed ∧
    exec .dataHigh State.powerOn = .refused .notConstructed ∧
    exec .clkLow State.powerOn = .refused .notConstructed ∧
    exec .clkHigh State.powerOn = .refused .notConstructed ∧
    exec .standby State.powerOn = .refused .notConstructed := ⟨rfl, rfl, rfl, rfl, rfl, rfl⟩
/-- V12: reading `FRAME` while it holds no value. -/
theorem test_frame_read_without_value : readFrame [] 3 = .error (.frameNoValue 3) := by decide

/-! ### Witnesses: cases that meet the hypotheses of the statements -/

/-- The operands of the source's example. -/
def sample : Five Half := ⟨1023#16, 0#16, 800#16, 0#16, 0#16⟩

/-- A transmission about to begin. -/
def sending : State := ready.startTx (encodeFrame sample 2#4 4#4)

/-- The frame of `sending` holds a value at every offset. -/
theorem witness_full_frame :
    ∃ b : Fin 12 → Byte, ∀ k : Fin 12, sending.frame.lookup k.val = some (b k) :=
  ⟨fun k => (frameContent (encodeFrame sample 2#4 4#4)).getD k.val 0#8, by decide⟩

theorem constructOps_lastLevel (l : Line) : lastLevel l (constructOps Config.constructOrder) = some true := by
  cases Config.constructOrder <;> cases l <;> decide

/-- ConstructDrivesBothLinesHighAndSetsDefaults (constructed or not), SetPowerLevelsStoresLowFourBits,
WriteBuildsFrameAndStartsSequencer, WriteNormalizedIsWriteOfConvertedOperands, WriteTransmitsWholeFrameIn328Steps,
WriteEqualsItsFrameKindTakenWhole, NewLevelsEnterTheNextFrame, RepeatedWritesRepeatThePulses,
FrameKindsTransmitTheirFrame, LineOperationsRecordAndLatch, ByteIsEightPulsesAndATrailer. -/
theorem witness_ready :
    ready.seq = .idle ∧ ready.constructed = true ∧ ready.rgbPl = some 2#4 ∧ ready.cwPl = some 4#4 ∧
    State.powerOn.seq = .idle := ⟨rfl, rfl, rfl, rfl, rfl⟩

/-- HostCommandsAreLegalExactlyWhenReady: the premise on the levels holds ready, not constructed, and busy, and each
answer occurs. -/
theorem witness_host_command_states :
    (ready.rgbPl.isSome ∧ ready.cwPl.isSome ∧ (nextOf (exec (.write sample) ready)).isSome) ∧
    (State.powerOn.constructed = false ∧ State.powerOn.seq = .idle ∧
      exec (.write sample) State.powerOn = .refused .notConstructed) ∧
    (sending.rgbPl.isSome ∧ sending.cwPl.isSome ∧ exec (.write sample) sending = .refused .busy) :=
  ⟨by decide, ⟨rfl, rfl, rfl⟩, rfl, rfl, rfl⟩

/-- OnlyConstructRunsBeforeConstruction: an unconstructed state, idle and (one no run reaches) not idle. -/
theorem witness_unconstructed :
    State.powerOn.constructed = false ∧ State.powerOn.seq = .idle ∧
    ({ State.powerOn with seq := .tx .start } : State).seq ≠ .idle := by decide

/-- NothingHasAValueBeforeConstruction: a step from power-on with nothing waiting, and the step that constructs. -/
theorem witness_unconstructed_step :
    step State.powerOn = .next State.powerOn ∧ State.powerOn.constructed = false ∧
    State.powerOn.rgbPl = none ∧ State.powerOn.cwPl = none ∧ State.powerOn.dataOut = none ∧
    State.powerOn.clkOut = none ∧ State.powerOn.trace = [] ∧ State.powerOn.seq = .idle ∧
    ∃ t, step (State.powerOn.setPending [⟨.host, [0#8]⟩]) = .next t ∧ t.constructed = true :=
  ⟨rfl, rfl, rfl, rfl, rfl, rfl, rfl, rfl, _, rfl, rfl⟩

/-- HostCommandsRefusedWhileBusy. -/
theorem witness_busy : sending.seq ≠ .idle := by decide

/-- ClampSaturatesAt1023: both sides of the boundary. -/
theorem witness_clamp_boundary : (1023#16).toNat < 1024 ∧ 1024 ≤ (1024#16).toNat := by decide

/-- AddressAndPowerByteOfEachMode, AddressByteDeterminesInactiveFields: every mode occurs (V8). -/
theorem witness_modes :
    classify ⟨0#16, 0#16, 0#16, 0#16, 0#16⟩ = .standby ∧ classify ⟨0#16, 0#16, 1#16, 0#16, 0#16⟩ = .rgb3 ∧
    classify ⟨0#16, 0#16, 0#16, 0#16, 1#16⟩ = .cw2 ∧ classify ⟨1#16, 0#16, 0#16, 1#16, 0#16⟩ = .all5 ∧
    (encodeFrame ⟨0#16, 0#16, 0#16, 0#16, 0#16⟩ 2#4 4#4).lookup 0 = some 0xC0#8 ∧
    (encodeFrame ⟨0#16, 0#16, 1#16, 0#16, 0#16⟩ 2#4 4#4).lookup 0 = some 0xC8#8 ∧
    (encodeFrame ⟨0#16, 0#16, 0#16, 0#16, 1#16⟩ 2#4 4#4).lookup 0 = some 0xD0#8 := by decide

/-- TransmissionHasTheClosedForm, TransmissionCounts, RisingClockSamplesFrameBits, and the two lists of
OnlyDataBitLevelsDependOnTheFrame, which differ at the first and the last data bit. -/
theorem witness_twelve_bytes :
    (List.replicate 12 0#8).length = 12 ∧ (List.replicate 12 0xFF#8).length = 12 ∧
    (txOps (List.replicate 12 0#8))[2]? ≠ (txOps (List.replicate 12 0xFF#8))[2]? ∧
    (txOps (List.replicate 12 0#8))[320]? ≠ (txOps (List.replicate 12 0xFF#8))[320]? := by decide

/-- SequencerStepTable: `IDLE` with nothing waiting (`ready`), a `WRITE` that answers a next state
(`witness_host_command_states`), the premise on the frame with `SEQ` at each position, and the two arithmetic side conditions
at both ends of their ranges. -/
theorem witness_sequencer_positions :
    sending.seq = .tx .start ∧ (∀ p, ({ sending with seq := .tx p } : State).seq = .tx p ∧
      ({ sending with seq := .tx p } : State).frame = sending.frame) ∧
    (1 : Fin 8).val = (0 : Fin 8).val + 1 ∧ (7 : Fin 8).val = (6 : Fin 8).val + 1 ∧
    (1 : Fin 12).val = (0 : Fin 12).val + 1 ∧ (11 : Fin 12).val = (10 : Fin 12).val + 1 :=
  ⟨rfl, fun _ => ⟨rfl, rfl⟩, rfl, rfl, rfl, rfl⟩

/-- The invariant holds of `sending` with these words waiting. -/
theorem sending_inv (ps : List Packet) (hp : HostOnly ps) : MachineInv (sending.setPending ps) := by
  refine ⟨hp, ?_, ?_, by simp [sending, ready], by simp [sending, ready], by simp [sending], ?_⟩
  · exact Memory.storeChannel_wf _ _ _ (Memory.storeChannel_wf _ _ _ (Memory.storeChannel_wf _ _ _
      (Memory.storeChannel_wf _ _ _ (Memory.storeChannel_wf _ _ _
        (Memory.store_wf _ _ _ (Memory.store_wf _ _ _ Memory.nil_wf))))))
  · exact ⟨(constructOps_lastLevel .data).symm, (constructOps_lastLevel .clk).symm⟩
  · intro p h
    have h : TxPos.start = p := by simpa [sending] using h
    subst h
    exact ⟨rfl, ⟨sample, 2#4, 4#4, rfl⟩, rfl, rfl⟩

/-- The invariant holds of `ready` with these words waiting. -/
theorem ready_inv (ps : List Packet) (hp : HostOnly ps) : MachineInv (ready.setPending ps) := by
  refine ⟨hp, Memory.nil_wf, ?_, by simp [ready], by simp [ready], by simp [ready], by simp [ready]⟩
  exact ⟨(constructOps_lastLevel .data).symm, (constructOps_lastLevel .clk).symm⟩

/-- A `SET_POWER_LEVELS` and a `WRITE` waiting. -/
def words : List Packet := [⟨.host, [1#8, 0x1F#8, 0x2C#8]⟩, encode (.write sample)]

theorem words_hostOnly : HostOnly words := by
  intro p hp
  simp only [words, List.mem_cons, List.not_mem_nil, or_false] at hp
  rcases hp with rfl | rfl <;> rfl

theorem words_decodable : Decodable words := by
  intro p hp
  simp only [words, List.mem_cons, List.not_mem_nil, or_false] at hp
  rcases hp with rfl | rfl
  · exact ⟨.setPowerLevels 0x1F#8 0x2C#8, by decide⟩
  · exact ⟨.write sample, by decide⟩

/-- EveryStepKeepsTheInv, TraceStaysMadeOfWholeOperations, DataMovesOnlyWhileClockIsLow (START moves the data line),
WaitingWordsDoNotTouchATransmission, SequencerNeverBranchesOnData, FrameAndLevelsFixedDuringTransmission,
LatchesFollowTheGrowingTrace, NoStepFaultsUnderInv: a step in a transmission. -/
theorem witness_transmitting_step :
    MachineInv sending ∧ TraceWhole sending ∧ sending.seq = .tx .start ∧
    ∃ t, step sending = .next t ∧ t.dataOut ≠ sending.dataOut :=
  ⟨sending_inv [] (fun _ h => absurd h List.not_mem_nil),
    ⟨_, .construct .nil, by simp [sending, ready, posIndex]⟩, rfl, _, step_tx rfl rfl, by decide⟩

/-- DataMovesOnlyWhileClockIsLow, the other clauses: a clock operation, and a data bit that moves the line. -/
theorem witness_clock_step :
    ∃ t u, step sending = .next t ∧ step t = .next u ∧ u.trace = t.trace ++ [⟨.clk, false⟩] ∧ t.clkOut = some true ∧
      ∃ w, step u = .next w ∧ w.dataOut ≠ u.dataOut ∧ u.clkOut = some false :=
  ⟨_, _, step_tx rfl rfl, step_tx rfl rfl, rfl, rfl, _, step_tx rfl rfl, by decide, rfl⟩

/-- StepRunsTheDecodedWord, OnlyConfigurationWritesPowerLevels, StepsNeverStickOnceConstructed,
EveryPendingOperationCompletes: words waiting in `IDLE`. -/
theorem witness_words_waiting :
    MachineInv (ready.setPending words) ∧ Decodable (ready.setPending words).pending ∧
    (ready.setPending words).constructed = true ∧ (ready.setPending words).seq = .idle ∧
    ∃ t, step (ready.setPending words) = .next t ∧ t.rgbPl ≠ (ready.setPending words).rgbPl :=
  ⟨ready_inv _ words_hostOnly, words_decodable, rfl, rfl, _, rfl, by decide⟩

/-- EveryPendingOperationCompletes, in a transmission with words waiting. -/
theorem witness_words_waiting_behind_transmission :
    MachineInv (sending.setPending words) ∧ (sending.setPending words).constructed = true ∧
    Decodable (sending.setPending words).pending :=
  ⟨sending_inv _ words_hostOnly, rfl, words_decodable⟩

/-- IdleStepWaitsOrRefuses: nothing waiting, and bytes that are no word. -/
theorem witness_idle_clauses :
    ready.pending = [] ∧ decode ⟨.host, [7#8]⟩ = .error .padding ∧
    (ready.setPending [⟨.host, [7#8]⟩]).seq = .idle := by decide

/-- FetchWordIsWhatTheNextStepRuns. -/
theorem witness_fetch : ready.seq = .idle ∧ decodeTableWord 24 0x10204 = some (.setPowerLevels 2#8 4#8) := by decide

/-- NonStoringInstructionsLeaveMemory: each form answers a next state. -/
theorem witness_non_storing_forms :
    (nextOf (exec .construct ready)).isSome ∧ (nextOf (exec (.setPowerLevels 1#8 2#8) ready)).isSome ∧
    (nextOf (exec (.byte 0x55#8) ready)).isSome ∧ (nextOf (exec .dataLow ready)).isSome ∧
    (nextOf (exec .dataHigh ready)).isSome ∧ (nextOf (exec .clkLow ready)).isSome ∧
    (nextOf (exec .clkHigh ready)).isSome := by decide

/-- WritesStoreOnlyToTheFrame: both forms, from a canonical frame buffer. -/
theorem witness_writes :
    ready.frame.wf ∧ (nextOf (exec (.write sample) ready)).isSome ∧
    (nextOf (exec (.writeNormalized ⟨0x3F000000#32, 0#32, 0#32, 0#32, 0#32⟩) ready)).isSome := by decide

/-- FrameKindsLeaveRegistersAndMemory: each kind, from an empty frame buffer. -/
theorem witness_frame_kinds :
    ready.frame = [] ∧ (nextOf (exec .standby ready)).isSome ∧ (nextOf (exec (.rgb3 2#4 1#10 0#10 0#10) ready)).isSome ∧
    (nextOf (exec (.cw2 4#4 0#10 1#10) ready)).isSome ∧
    (nextOf (exec (.all5 2#4 4#4 1#10 0#10 0#10 1#10 0#10) ready)).isSome := by decide

/-- EncoderBuildsTheWordOfItsFrameKind speaks of well-formed terms: one of each frame kind with operands at the ends of
their ranges. -/
theorem witness_well_formed :
    (Instr.rgb3 0xF#4 1023#10 0#10 0#10).wf ∧ (Instr.cw2 0#4 0#10 1023#10).wf ∧
    (Instr.all5 0xF#4 0#4 0#10 0#10 1#10 1#10 0#10).wf := by decide

/-- OnlyEncodedWordsDecode, PatternsNeverGeneratedAreRejected: words that decode, with a channel field of 1023, a line
code and a selector of 3. -/
theorem witness_decodable :
    decode ⟨.frame, [0xD8#8, 0xFF#8, 3#8, 0xFF#8, 0#8, 0#8, 0#8, 0#8, 0#8, 0#8, 0#8, 1#8]⟩ =
      .ok (.all5 0xF#4 0xF#4 1023#10 0#10 0#10 0#10 1#10) ∧
    decode ⟨.line, [3#8]⟩ = .ok .clkHigh ∧
    decode ⟨.host, 3#8 :: List.replicate 20 0#8⟩ = .ok (.writeNormalized ⟨0#32, 0#32, 0#32, 0#32, 0#32⟩) := by decide

/-- The value of a pattern from its three fields. -/
theorem f32Value_of_fields {x : Single} {sgn : Bool} {e f : Nat} (hs : x.getLsbD 31 = sgn)
    (he : (x.extractLsb' 23 8).toNat = e) (hf : (x.extractLsb' 0 23).toNat = f) :
    f32Value x = (if sgn then -1 else 1) *
      (if e = 0 then (2 : ℚ) ^ (-126 : Int) * (f / 2 ^ 23) else (2 : ℚ) ^ ((e : Int) - 127) * (1 + f / 2 ^ 23)) := by
  subst hs he hf
  unfold f32Value
  split <;> simp_all

theorem value_zero : f32Value 0#32 = 0 := by
  rw [f32Value_of_fields (sgn := false) (e := 0) (f := 0) (by decide) (by decide) (by decide)]; norm_num
theorem value_minus_zero : f32Value 0x80000000#32 = 0 := by
  rw [f32Value_of_fields (sgn := true) (e := 0) (f := 0) (by decide) (by decide) (by decide)]; norm_num
theorem value_below_one : f32Value 0x3F7FFFFF#32 = 16777215 / 16777216 := by
  rw [f32Value_of_fields (sgn := false) (e := 126) (f := 8388607) (by decide) (by decide) (by decide)]; norm_num
theorem value_one : f32Value 0x3F800000#32 = 1 := by
  rw [f32Value_of_fields (sgn := false) (e := 127) (f := 0) (by decide) (by decide) (by decide)]; norm_num
theorem value_below_64 : f32Value 0x427FFFFF#32 = 16777215 / 262144 := by
  rw [f32Value_of_fields (sgn := false) (e := 132) (f := 8388607) (by decide) (by decide) (by decide)]; norm_num
theorem value_64 : f32Value 0x42800000#32 = 64 := by
  rw [f32Value_of_fields (sgn := false) (e := 133) (f := 0) (by decide) (by decide) (by decide)]; norm_num
theorem value_below_zero : f32Value 0x80000001#32 < 0 := by
  rw [f32Value_of_fields (sgn := true) (e := 0) (f := 1) (by decide) (by decide) (by decide)]; norm_num

/-- A pattern whose exponent field is not all ones is finite. -/
theorem finite_of_exp {x : Single} (h : (x.extractLsb' 23 8 != 255#8) = true) : f32Finite x := by
  simpa [f32Finite] using h

/-- NormOfUnitIntervalIsFloor: both ends, 0.0, −0.0 and 1 − 2^-24. -/
theorem witness_unit_interval :
    (f32Finite 0#32 ∧ f32Value 0#32 = 0) ∧ (f32Finite 0x80000000#32 ∧ f32Value 0x80000000#32 = 0) ∧
    (f32Finite 0x3F7FFFFF#32 ∧ 0 ≤ f32Value 0x3F7FFFFF#32 ∧ f32Value 0x3F7FFFFF#32 < 1) := by
  refine ⟨⟨finite_of_exp (by decide), value_zero⟩, ⟨finite_of_exp (by decide), value_minus_zero⟩,
    finite_of_exp (by decide), ?_, ?_⟩ <;> norm_num [value_below_one]

/-- NormFromOneUpIsEncodedAs1023: 1.0, the largest below 64.0, and 64.0. -/
theorem witness_from_one_up :
    (f32Finite 0x3F800000#32 ∧ f32Value 0x3F800000#32 = 1) ∧
    (f32Finite 0x427FFFFF#32 ∧ 1 ≤ f32Value 0x427FFFFF#32 ∧ f32Value 0x427FFFFF#32 < 64) ∧
    (f32Finite 0x42800000#32 ∧ f32Value 0x42800000#32 = 64) := by
  refine ⟨⟨finite_of_exp (by decide), value_one⟩, ⟨finite_of_exp (by decide), ?_, ?_⟩,
    finite_of_exp (by decide), value_64⟩ <;> norm_num [value_below_64]

/-- NormElsewhereIsTheOpenParameter: the negative value nearest to 0, and a pattern that is not a number. -/
theorem witness_open_parameter :
    (f32Finite 0x80000001#32 ∧ f32Value 0x80000001#32 < 0) ∧
    (0x7FC00000#32).extractLsb' 23 8 = 255#8 ∧ (0x7FC00000#32).extractLsb' 0 23 ≠ 0#23 :=
  ⟨⟨finite_of_exp (by decide), value_below_zero⟩, by decide, by decide⟩

end Sys2Proof.Tests
end

section
/-! PROOFS. What the shared operations and the instructions can do, each said once: `emitAll` field by field, an encoded
frame as a buffer, the outcome of `exec`, the outcome of `step`. -/

namespace Sys2Proof.Machine

/-! ### `emitAll` and `CONSTRUCT`'s two line operations -/

@[simp] theorem emitAll_rgbPl (ops : List LineOp) (s : State) : (emitAll ops s).rgbPl = s.rgbPl := by rw [emitAll_eq]
@[simp] theorem emitAll_cwPl (ops : List LineOp) (s : State) : (emitAll ops s).cwPl = s.cwPl := by rw [emitAll_eq]
@[simp] theorem emitAll_dataOut (ops : List LineOp) (s : State) :
    (emitAll ops s).dataOut = latchAfter .data s.dataOut ops := by rw [emitAll_eq]
@[simp] theorem emitAll_clkOut (ops : List LineOp) (s : State) :
    (emitAll ops s).clkOut = latchAfter .clk s.clkOut ops := by rw [emitAll_eq]
@[simp] theorem emitAll_frame (ops : List LineOp) (s : State) : (emitAll ops s).frame = s.frame := by rw [emitAll_eq]
@[simp] theorem emitAll_seq (ops : List LineOp) (s : State) : (emitAll ops s).seq = s.seq := by rw [emitAll_eq]
@[simp] theorem emitAll_constructed (ops : List LineOp) (s : State) :
    (emitAll ops s).constructed = s.constructed := by rw [emitAll_eq]
@[simp] theorem emitAll_trace (ops : List LineOp) (s : State) : (emitAll ops s).trace = s.trace ++ ops := by
  rw [emitAll_eq]
@[simp] theorem emitAll_pending (ops : List LineOp) (s : State) : (emitAll ops s).pending = s.pending := by
  rw [emitAll_eq]

/-- `CONSTRUCT` leaves both lines high, in either order. -/
@[simp] theorem latchAfter_constructOps (l : Line) (o : Option Bool) (order : Config.ConstructOrder) :
    latchAfter l o (constructOps order) = some true := by
  cases order <;> cases l <;> rfl

/-! ### The encoded frame as a buffer -/

theorem encodeFrame_wf (v : Five Half) (r c : Nibble) : (encodeFrame v r c).wf := by
  have hstart : ((Memory.store [] 0 (addressByte (classify v))).store 1 (powerByte (classify v) r c)).wf :=
    Memory.store_wf _ _ _ (Memory.store_wf _ _ _ Memory.nil_wf)
  have hpack (m : Memory) (i : Fin 5) (x : Half) (h : m.wf) : (pack m i x).wf := Memory.storeChannel_wf m i _ h
  exact hpack _ _ _ (hpack _ _ _ (hpack _ _ _ (hpack _ _ _ (hpack _ _ _ hstart))))

theorem encodeFrame_lookup_isSome (v : Five Half) (r c : Nibble) {a : Nat} (ha : a < 12) :
    ((encodeFrame v r c).lookup a).isSome := by
  simp [encodeFrame_lookup v r c ⟨a, ha⟩, frameContent_length, ha]

/-! ### What an instruction can do -/

/-- The next state each instruction can answer, by the form of its meaning. The units of output (log entry 10) are the
instructions whose word does not stand at the host's port. -/
inductive ExecNext (s : State) : Instr → State → Prop
  | construct : ExecNext s .construct
      ((emitAll (constructOps Config.constructOrder) s).setLevels Config.rgbPlDefault Config.cwPlDefault).setConstructed
  | setPowerLevels (rgb cw : Byte) : s.constructed = true →
      ExecNext s (.setPowerLevels rgb cw) (s.setLevels (maskLevel rgb) (maskLevel cw))
  | write {i : Instr} {v : Five Half} {r c : Nibble} : exec i = beginWrite v → s.constructed = true →
      s.rgbPl = some r → s.cwPl = some c → ExecNext s i (s.startTx (encodeFrame v r c))
  | drive {i : Instr} {ops : List LineOp} : Laws.Layout.portOf i ≠ .host → exec i = drive ops →
      s.constructed = true → ExecNext s i (emitAll ops s)
  | transmit {i : Instr} {bytes : List Byte} : Laws.Layout.portOf i ≠ .host → exec i = transmit bytes →
      s.constructed = true → ExecNext s i (emitAll (txOps bytes) s).dropFrame

theorem execNext_of_beginWrite {i : Instr} {v : Five Half} {s t : State} (hi : exec i = beginWrite v)
    (h : exec i s = .next t) : ExecNext s i t := by
  obtain ⟨-, hcon, h⟩ := whenReady_next ((congrFun hi s).symm.trans h)
  obtain ⟨r, c, hr, hc, h⟩ := withLevels_next h
  cases h
  exact .write hi hcon hr hc

theorem execNext_of_drive {i : Instr} {ops : List LineOp} {s t : State} (hport : Laws.Layout.portOf i ≠ .host)
    (hi : exec i = drive ops) (h : exec i s = .next t) : ExecNext s i t := by
  obtain ⟨-, hcon, h⟩ := whenReady_next ((congrFun hi s).symm.trans h)
  cases h
  exact .drive hport hi hcon

theorem execNext_of_transmit {i : Instr} {bytes : List Byte} {s t : State} (hport : Laws.Layout.portOf i ≠ .host)
    (hi : exec i = transmit bytes) (h : exec i s = .next t) : ExecNext s i t := by
  obtain ⟨-, hcon, h⟩ := whenReady_next ((congrFun hi s).symm.trans h)
  cases h
  exact .transmit hport hi hcon

/-- What an instruction that answers a next state answers. -/
theorem exec_next {i : Instr} {s t : State} (h : exec i s = .next t) : ExecNext s i t := by
  cases i with
  | construct => cases (whenIdle_next h).2; exact .construct
  | setPowerLevels rgb cw =>
    obtain ⟨-, hcon, h⟩ := whenReady_next h
    cases h
    exact .setPowerLevels rgb cw hcon
  | write => exact execNext_of_beginWrite rfl h
  | writeNormalized => exact execNext_of_beginWrite rfl h
  | standby => exact execNext_of_transmit nofun rfl h
  | rgb3 => exact execNext_of_transmit nofun rfl h
  | cw2 => exact execNext_of_transmit nofun rfl h
  | all5 => exact execNext_of_transmit nofun rfl h
  | byte => exact execNext_of_drive nofun rfl h
  | dataLow => exact execNext_of_drive nofun rfl h
  | dataHigh => exact execNext_of_drive nofun rfl h
  | clkLow => exact execNext_of_drive nofun rfl h
  | clkHigh => exact execNext_of_drive nofun rfl h

/-- An instruction answers a next state only in an idle state (R61, R109). -/
theorem exec_next_idle {i : Instr} {s t : State} (h : exec i s = .next t) : s.seq = .idle := by
  by_contra hb
  cases (exec_of_busy i hb).symm.trans h

/-- Presented at the host's port a word is never a unit of output. -/
theorem portOf_of_decode_host {p : Packet} {i : Instr} (hp : p.port = .host) (h : decode p = .ok i) :
    Laws.Layout.portOf i = .host := by
  simp only [decode, hp] at h
  unfold decodeHost decodeH1 decodeH2 decodeH3 at h
  repeat' split at h
  all_goals cases h
  all_goals rfl

/-! ### What a step can do -/

/-- A step in a transmission issues the line operation of its position and moves `SEQ` on. -/
theorem step_tx_next {s t : State} {p : TxPos} (hp : s.seq = .tx p) (h : step s = .next t) :
    ∃ op, lineAt p s.frame = .ok op ∧ t = (emit op s).advance p := by
  rcases step_tx_cases hp with ⟨op, ho, h'⟩ | ⟨f, -, h'⟩
  · cases h'.symm.trans h
    exact ⟨op, ho, rfl⟩
  · cases h'.symm.trans h

theorem seq_tx_of_ne_idle {s : State} (h : s.seq ≠ .idle) : ∃ p, s.seq = .tx p := by
  cases hs : s.seq with
  | idle => exact absurd hs h
  | tx p => exact ⟨p, rfl⟩

/-- Every step that answers a next state waits in `IDLE`, takes a word there and runs it, or issues one line operation
of a transmission. -/
theorem step_next {s t : State} (h : step s = .next t) :
    (s.seq = .idle ∧ s.pending = [] ∧ t = s) ∨
    (s.seq = .idle ∧ ∃ p rest i, s.pending = p :: rest ∧ decode p = .ok i ∧
      exec i (s.setPending rest) = .next t) ∨
    ∃ p op, s.seq = .tx p ∧ lineAt p s.frame = .ok op ∧ t = (emit op s).advance p := by
  cases hs : s.seq with
  | idle =>
    rcases step_idle_next hs h with ⟨hp, ht⟩ | hrun
    · exact .inl ⟨rfl, hp, ht⟩
    · exact .inr (.inl ⟨rfl, hrun⟩)
  | tx p =>
    obtain ⟨op, ho, ht⟩ := step_tx_next hs h
    exact .inr (.inr ⟨p, op, rfl, ho, ht⟩)

end Sys2Proof.Machine
end

section
/-! PROOFS. The invariant of the machine: each instruction of the host and each line operation of a transmission keeps
it (R23, R28, R29, R30, R83, R87). -/

namespace Sys2Proof.Machine

/-! ### The lines at each position of a transmission -/

theorem lineAt_bit_p1_ok {m : Memory} {k : Fin 12} {j : Fin 8} {op : LineOp}
    (h : lineAt (.bit k j .p1) m = .ok op) : ∃ b, m.lookup k.val = some b ∧ op = ⟨.data, b.getLsbD j.val⟩ := by
  cases hb : m.lookup k.val with
  | none => simp [lineAt, readFrame, hb] at h
  | some b =>
    rw [lineAt_bit_p1 j hb] at h
    cases h
    exact ⟨b, rfl, rfl⟩

/-- Only the last position of a transmission leads to `IDLE`. -/
theorem nextPos_eq_idle {p : TxPos} (h : nextPos p = .idle) : p = .stop .p2 := by
  rcases p with _ | ⟨k, j, _ | _ | _⟩ | ⟨k, _ | _ | _⟩ | _ | _ | _
  case stop.p2 => rfl
  case bit.p2 =>
    by_cases hj : 0 < j.val
    · cases (nextPos_bit_p2 k j hj).symm.trans h
    · cases (nextPos_bit_p2_last k j hj).symm.trans h
  case trl.p2 =>
    by_cases hk : k.val < 11
    · cases (nextPos_trl_p2 k hk).symm.trans h
    · cases (nextPos_trl_p2_last k hk).symm.trans h
  all_goals cases h

/-- Where both lines are as the protocol puts them before a position, the operation of that position leaves them as the
protocol puts them before the next one (R83). -/
theorem lines_before_nextPos {p q : TxPos} {m : Memory} {op : LineOp} (ho : lineAt p m = .ok op)
    (hq : nextPos p = .tx q) :
    (if op.line = .clk then some op.level else some (clkBefore p)) = some (clkBefore q) ∧
    (if op.line = .data then some op.level else dataBefore m p) = dataBefore m q := by
  rcases p with _ | ⟨k, j, _ | _ | _⟩ | ⟨k, _ | _ | _⟩ | _ | _ | _
  case bit.p1 =>
    obtain ⟨b, hb, rfl⟩ := lineAt_bit_p1_ok ho
    cases hq
    simp [clkBefore, dataBefore, frameBit, hb]
  case bit.p2 =>
    cases ho
    by_cases hj : 0 < j.val
    · cases (nextPos_bit_p2 k j hj).symm.trans hq
      have hne : j.val - 1 ≠ 7 := by omega
      have hsucc : j.val - 1 + 1 = j.val := by omega
      simp [clkBefore, dataBefore, hne, hsucc]
    · cases (nextPos_bit_p2_last k j hj).symm.trans hq
      have hzero : j.val = 0 := by omega
      simp [clkBefore, dataBefore, hzero]
  case trl.p2 =>
    cases ho
    by_cases hk : k.val < 11
    · cases (nextPos_trl_p2 k hk).symm.trans hq
      simp [clkBefore, dataBefore]
    · cases (nextPos_trl_p2_last k hk).symm.trans hq
      exact ⟨rfl, rfl⟩
  case stop.p2 => cases hq
  all_goals
    cases ho
    cases hq
    exact ⟨rfl, rfl⟩

/-! ### The invariant, step by step -/

theorem HostOnly.tail {p : Packet} {ps : List Packet} (h : HostOnly (p :: ps)) : HostOnly ps :=
  fun _ hq => h _ (List.mem_cons_of_mem _ hq)

theorem MachineInv.setPending {s : State} {ps : List Packet} (h : MachineInv s) (hps : HostOnly ps) :
    MachineInv (s.setPending ps) :=
  ⟨hps, h.frameWf, h.latches, h.unconstructed, h.levels, h.idle, h.transmitting⟩

/-- `CONSTRUCT` and `SET_POWER_LEVELS` leave the block constructed and idle: what the invariant asks of such a state. -/
theorem MachineInv.of_constructed_idle {s : State} (hhost : HostOnly s.pending) (hlat : LatchesFollowTrace s)
    (hidle : s.seq = .idle) (hcon : s.constructed = true) (hlev : s.rgbPl.isSome ∧ s.cwPl.isSome)
    (hframe : s.frame = []) (hlines : s.dataOut = some true ∧ s.clkOut = some true) : MachineInv s where
  hostOnly := hhost
  frameWf := hframe ▸ Memory.nil_wf
  latches := hlat
  unconstructed h := by simp [hcon] at h
  levels _ := hlev
  idle _ := ⟨hframe, fun _ => hlines⟩
  transmitting p h := by simp [hidle] at h

/-- An instruction of the host keeps the invariant. -/
theorem exec_keeps_inv {s t : State} {i : Instr} (hinv : MachineInv s) (hport : Laws.Layout.portOf i = .host)
    (h : exec i s = .next t) : MachineInv t := by
  have hidle := exec_next_idle h
  obtain ⟨hframe, hlines⟩ := hinv.idle hidle
  cases exec_next h with
  | construct =>
    exact .of_constructed_idle (by simpa using hinv.hostOnly) (emitAll_latches _ hinv.latches) (by simpa using hidle)
      rfl ⟨rfl, rfl⟩ (by simpa using hframe) (by simp)
  | setPowerLevels rgb cw hcon =>
    exact .of_constructed_idle hinv.hostOnly hinv.latches hidle hcon ⟨rfl, rfl⟩ hframe (hlines hcon)
  | @write _ v r c _ hcon hr hc =>
    obtain ⟨hdata, hclk⟩ := hlines hcon
    exact {
      hostOnly := hinv.hostOnly
      frameWf := encodeFrame_wf v r c
      latches := hinv.latches
      unconstructed := fun h => by simp [hcon] at h
      levels := hinv.levels
      idle := fun h => by simp at h
      transmitting := fun p hp => by
        cases hp
        exact ⟨hcon, ⟨v, r, c, rfl⟩, hclk, hdata⟩ }
  | drive hunit => exact absurd hport hunit
  | transmit hunit => exact absurd hport hunit

/-- A line operation of a transmission keeps the invariant. -/
theorem advance_keeps_inv {s : State} {p : TxPos} {op : LineOp} (hinv : MachineInv s) (hp : s.seq = .tx p)
    (ho : lineAt p s.frame = .ok op) : MachineInv ((emit op s).advance p) := by
  obtain ⟨hcon, henc, hclk, hdata⟩ := hinv.transmitting p hp
  cases hq : nextPos p with
  | idle =>
    cases nextPos_eq_idle hq
    cases ho
    have hlat : LatchesFollowTrace (emit ⟨.data, true⟩ s) := emit_latches _ hinv.latches
    exact .of_constructed_idle hinv.hostOnly hlat rfl hcon (hinv.levels hcon) rfl ⟨rfl, hclk⟩
  | tx q =>
    have hframe : ((emit op s).advance p).frame = s.frame := by simp [hq]
    obtain ⟨hclk', hdata'⟩ := lines_before_nextPos ho hq
    exact {
      hostOnly := hinv.hostOnly
      frameWf := hframe ▸ hinv.frameWf
      latches := emit_latches op hinv.latches
      unconstructed := fun h => by simp [hcon] at h
      levels := hinv.levels
      idle := fun h => by simp [hq] at h
      transmitting := fun q' hq' => by
        cases hq'.symm.trans hq
        refine ⟨hcon, hframe ▸ henc, ?_, ?_⟩
        · simpa [hclk] using hclk'
        · rw [hframe]
          simpa [hdata] using hdata' }

/-- Settles O43, by the three things a step can do: wait, run a host's instruction, issue a line operation. -/
theorem everyStepKeepsTheInv : Obligations.EveryStepKeepsTheInv := by
  intro s t hinv h
  obtain ⟨-, -, rfl⟩ | ⟨-, p, rest, i, hpend, hdec, hexec⟩ | ⟨p, op, hp, ho, rfl⟩ := step_next h
  · exact hinv
  · have hhost : HostOnly (p :: rest) := hpend ▸ hinv.hostOnly
    exact exec_keeps_inv (hinv.setPending hhost.tail) (portOf_of_decode_host (hhost p List.mem_cons_self) hdec) hexec
  · exact advance_keeps_inv hinv hp ho

theorem powerOn_meets_inv : MachineInv State.powerOn where
  hostOnly _ h := absurd h List.not_mem_nil
  frameWf := Memory.nil_wf
  latches := ⟨rfl, rfl⟩
  unconstructed _ := ⟨rfl, rfl, rfl, rfl, rfl, rfl⟩
  levels h := by cases h
  idle _ := ⟨rfl, fun h => by cases h⟩
  transmitting _ h := by cases h

theorem exec_construct_powerOn : exec .construct State.powerOn = .next State.reset := by
  simp [exec, execConstruct, emitAll_eq, State.powerOn, State.reset, State.setLevels, State.setConstructed]

/-- Settles O2. -/
theorem resetIsConstructAtPowerOn : Obligations.ResetIsConstructAtPowerOn :=
  ⟨exec_construct_powerOn, rfl, rfl, rfl, rfl, rfl, rfl, fun _ => rfl⟩

/-- Settles O42: reset meets the invariant because it is `CONSTRUCT` run at power-on. -/
theorem resetAndPowerOnMeetTheInv : Obligations.ResetAndPowerOnMeetTheInv :=
  ⟨exec_keeps_inv powerOn_meets_inv rfl exec_construct_powerOn, powerOn_meets_inv, .construct .nil, .nil⟩

end Sys2Proof.Machine
end

section
/-! PROOFS. What a step changes and what it leaves unchanged: the power levels, the latches and the trace,
`CONSTRUCTED`, the frame and `SEQ` during a transmission. -/

namespace Sys2Proof.Machine

/-! ### One instruction -/

/-- An instruction other than `CONSTRUCT` and `SET_POWER_LEVELS` leaves the power levels (R21, R22). -/
theorem exec_levels {s t : State} {i : Instr} (h : exec i s = .next t) :
    (i = .construct ∨ ∃ rgb cw, i = .setPowerLevels rgb cw) ∨ t.rgbPl = s.rgbPl ∧ t.cwPl = s.cwPl := by
  cases exec_next h with
  | construct => exact .inl (.inl rfl)
  | setPowerLevels rgb cw => exact .inl (.inr ⟨rgb, cw, rfl⟩)
  | write => exact .inr ⟨rfl, rfl⟩
  | drive => exact .inr (by simp)
  | transmit => exact .inr (by simp)

/-- An instruction is a list of line operations, possibly none, as far as the lines and the trace are concerned. -/
theorem exec_lines {s t : State} {i : Instr} (h : exec i s = .next t) :
    ∃ ops, t.trace = (emitAll ops s).trace ∧ t.dataOut = (emitAll ops s).dataOut ∧
      t.clkOut = (emitAll ops s).clkOut := by
  cases exec_next h with
  | construct => exact ⟨_, rfl, rfl, rfl⟩
  | setPowerLevels => exact ⟨[], rfl, rfl, rfl⟩
  | write => exact ⟨[], rfl, rfl, rfl⟩
  | drive => exact ⟨_, rfl, rfl, rfl⟩
  | transmit => exact ⟨_, rfl, rfl, rfl⟩

/-- Every instruction that answers a next state leaves the block constructed (R30). -/
theorem exec_constructed {s t : State} {i : Instr} (h : exec i s = .next t) : t.constructed = true := by
  cases exec_next h with
  | construct => rfl
  | setPowerLevels _ _ hcon => exact hcon
  | write _ hcon => exact hcon
  | drive _ _ hcon => simpa using hcon
  | transmit _ _ hcon => simpa using hcon

/-! ### One step -/

/-- A step, too, is a list of line operations, possibly none, as far as the lines and the trace are concerned. -/
theorem step_lines {s t : State} (h : step s = .next t) :
    ∃ ops, t.trace = (emitAll ops s).trace ∧ t.dataOut = (emitAll ops s).dataOut ∧
      t.clkOut = (emitAll ops s).clkOut := by
  obtain ⟨-, -, rfl⟩ | ⟨-, p, rest, i, -, -, hexec⟩ | ⟨p, op, -, -, rfl⟩ := step_next h
  · exact ⟨[], rfl, rfl, rfl⟩
  · obtain ⟨ops, htrace, hdata, hclk⟩ := exec_lines hexec
    exact ⟨ops, by simpa using htrace, by simpa using hdata, by simpa using hclk⟩
  · exact ⟨[op], rfl, rfl, rfl⟩

/-- Settles O41. -/
theorem onlyConfigurationWritesPowerLevels : Obligations.OnlyConfigurationWritesPowerLevels := by
  intro s t h hchange
  obtain ⟨-, -, rfl⟩ | ⟨hidle, p, rest, i, hpend, hdec, hexec⟩ | ⟨p, op, -, -, rfl⟩ := step_next h
  · simp at hchange
  · refine ⟨hidle, p, rest, hpend, ?_⟩
    obtain (rfl | ⟨rgb, cw, rfl⟩) | ⟨hrgb, hcw⟩ := exec_levels hexec
    · exact .inl hdec
    · exact .inr ⟨rgb, cw, hdec⟩
    · simp [hrgb, hcw] at hchange
  · simp at hchange

/-- Settles O45: a step issues some line operations, and `emitAll` keeps the latches on the trace. -/
theorem latchesFollowTheGrowingTrace : Obligations.LatchesFollowTheGrowingTrace := by
  intro s t h
  obtain ⟨ops, htrace, hdata, hclk⟩ := step_lines h
  refine ⟨fun hlat => ?_, ops, by simpa using htrace⟩
  obtain ⟨hdata', hclk'⟩ := emitAll_latches ops hlat
  exact ⟨by rw [hdata, htrace, hdata'], by rw [hclk, htrace, hclk']⟩

/-- Settles O58: an instruction leaves the block constructed, so only a step that waits, or one in a transmission, of
which an unconstructed block has none, can leave it unconstructed. -/
theorem nothingHasAValueBeforeConstruction : Obligations.NothingHasAValueBeforeConstruction := by
  intro s t h
  obtain ⟨-, -, rfl⟩ | ⟨-, p, rest, i, -, -, hexec⟩ | ⟨p, op, hp, -, rfl⟩ := step_next h
  · exact ⟨id, id⟩
  · have hcon := exec_constructed hexec
    exact ⟨fun _ => hcon, fun _ hun => by simp [hcon] at hun⟩
  · refine ⟨id, fun hnone hun => ?_⟩
    obtain ⟨-, -, -, -, -, hidle⟩ := hnone hun
    cases hp.symm.trans hidle

/-- Settles O39: the next position is `next(s)` of the position (R81). -/
theorem sequencerNeverBranchesOnData : Obligations.SequencerNeverBranchesOnData := by
  intro s s' t t' hsame hbusy h h'
  obtain ⟨p, hp⟩ := seq_tx_of_ne_idle hbusy
  obtain ⟨op, -, rfl⟩ := step_tx_next hp h
  obtain ⟨op', -, rfl⟩ := step_tx_next (hsame.symm.trans hp) h'
  rfl

/-- Settles O40. -/
theorem frameAndLevelsFixedDuringTransmission : Obligations.FrameAndLevelsFixedDuringTransmission := by
  intro s t hbusy h
  obtain ⟨p, hp⟩ := seq_tx_of_ne_idle hbusy
  obtain ⟨op, -, rfl⟩ := step_tx_next hp h
  exact ⟨rfl, rfl, rfl, fun hgoes => if_neg hgoes, fun hover => if_pos hover⟩

/-- Settles O57. -/
theorem onlyConstructRunsBeforeConstruction : Obligations.OnlyConstructRunsBeforeConstruction :=
  fun _ i hun hi => ⟨fun hidle => exec_of_unconstructed hi hidle hun, fun hbusy => exec_of_busy i hbusy⟩

/-- Settles O11. -/
theorem encodedFrameHasExactlyTwelveBytes : Obligations.EncodedFrameHasExactlyTwelveBytes :=
  fun v r c => ⟨encodeFrame_wf v r c, fun _ ha => encodeFrame_lookup_isSome v r c ha,
    fun a ha => Memory.lookup_outside _ a (encodeFrame_wf v r c) ha, frameContent_length v r c⟩

end Sys2Proof.Machine
end

section
/-! PROOFS. The two grains of a transmission (R27, D4): 328 steps of the sequencer end where the transmission taken
whole ends, and a `WRITE`'s frame is the word of its frame kind (R48). -/

namespace Sys2Proof.Machine

/-! ### The steps of a transmission -/

/-- From a position `p` on, with the bytes `bs` in the frame buffer, the steps that are left issue the operations of
`TX` from the number of `p` on, and end in `IDLE` with no frame. -/
theorem stepN_from_position {bs : List Byte} (hl : bs.length = 12) (n : Nat) {s : State} {p : TxPos}
    (hp : s.seq = .tx p) (hframe : ∀ k : Fin 12, s.frame.lookup k.val = bs[k.val]?) (hn : posIndex p + n = 328) :
    stepN n s = .next { emitAll ((txOps bs).drop (posIndex p)) s with seq := .idle, frame := [] } := by
  induction n generalizing s p with
  | zero => have := posIndex_lt p; omega
  | succ n ih =>
    obtain ⟨op, ho, hget⟩ := lineAt_eq_txOps p s.frame bs hl hframe
    have hdrop : (txOps bs).drop (posIndex p) = op :: (txOps bs).drop (posIndex p + 1) := by
      obtain ⟨hlt, rfl⟩ := List.getElem?_eq_some_iff.mp hget
      exact List.drop_eq_getElem_cons hlt
    simp only [stepN, step_tx hp ho, hdrop, emitAll_cons]
    rcases nextPos_index p with ⟨hq, hi⟩ | ⟨q, hq, hi⟩
    · have hn : n = 0 := by omega
      have hend : (txOps bs).drop (posIndex p + 1) = [] := List.drop_eq_nil_of_le (by rw [txOps_length]; omega)
      subst hn
      simp [stepN, hend, State.advance, hq]
    · rw [ih (p := q) hq (by simpa [hq] using hframe) (by omega), hi]
      simp [emitAll_eq]

/-- A transmission of 328 steps ends where the same transmission taken as one step ends. -/
theorem stepN_startTx {s : State} {m : Memory} {bs : List Byte} (hidle : s.seq = .idle) (hcon : s.constructed = true)
    (hl : bs.length = 12) (hm : ∀ k : Fin 12, m.lookup k.val = bs[k.val]?) :
    stepN 328 (s.startTx m) = transmit bs s := by
  rw [stepN_from_position (p := .start) hl 328 rfl hm rfl, transmit_of_ready bs hidle hcon]
  simp [emitAll_eq, latchAfter_txOps, posIndex, State.startTx, hidle]

/-! ### The frame of a `WRITE` is the word of its frame kind -/

theorem clamp_toNat_lt (x : Half) : (clamp x).toNat < 1024 := by
  unfold clamp
  split
  · assumption
  · decide

/-- The field a frame holds for an operand is the ten bits of its channel value. -/
theorem chanField_chanValue (x : Half) : chanField (chanValue x) = clamp x := by
  have := clamp_toNat_lt x
  apply BitVec.eq_of_toNat_eq
  rw [chanField_toNat, chanValue, BitVec.toNat_setWidth]
  omega

@[simp] theorem chanValue_zero : chanValue 0#16 = 0#10 := by decide

theorem addressByte_eq_addressField (m : Mode) : addressByte m = addressField m := by cases m <;> decide

/-- `FRAME[1]` as two nibbles: an inactive group's is 0 (R68). -/
theorem powerByte_eq_levelByte (m : Mode) (r c : Nibble) :
    powerByte m r c =
      levelByte (if (modeCode m).getLsbD 0 then r else 0#4) (if (modeCode m).getLsbD 1 then c else 0#4) := by
  simp only [powerByte, levelByte, BitVec.append_def, BitVec.shiftLeftZeroExtend_eq, BitVec.setWidth'_eq]

/-- The frame's bytes from its fields (R46). -/
theorem frameContent_encodeFrame (v : Five Half) (r c : Nibble) :
    frameContent (encodeFrame v r c) =
      frameBytes (classify v) (if (modeCode (classify v)).getLsbD 0 then r else 0#4)
        (if (modeCode (classify v)).getLsbD 1 then c else 0#4)
        (chanValue v.c0) (chanValue v.c1) (chanValue v.c2) (chanValue v.c3) (chanValue v.c4) := by
  rw [encodeFrame_cells]
  simp [frameContent, frameBytes, chanBytes, chanField_chanValue, addressByte_eq_addressField, powerByte_eq_levelByte]

theorem rgbZero_iff (v : Five Half) : rgbZero v = true ↔ v.c0 = 0#16 ∧ v.c1 = 0#16 ∧ v.c2 = 0#16 := by
  simp [rgbZero, and_assoc]

theorem cwZero_iff (v : Five Half) : cwZero v = true ↔ v.c3 = 0#16 ∧ v.c4 = 0#16 := by simp [cwZero]

/-- The word of a `WRITE`'s frame kind is its frame, at the frame port. -/
theorem encode_kindOf (v : Five Half) (r c : Nibble) :
    encode (kindOf v r c) = ⟨.frame, frameContent (encodeFrame v r c)⟩ := by
  rw [frameContent_encodeFrame]
  by_cases hrgb : rgbZero v = true
  · obtain ⟨h0, h1, h2⟩ := (rgbZero_iff v).mp hrgb
    by_cases hcw : cwZero v = true
    · obtain ⟨h3, h4⟩ := (cwZero_iff v).mp hcw
      have hmode : classify v = .standby := by simp [classify, hrgb, hcw]
      simp [kindOf, encode, hmode, modeCode, h0, h1, h2, h3, h4]
    · have hmode : classify v = .cw2 := by simp [classify, hrgb, hcw]
      simp [kindOf, encode, hmode, modeCode, h0, h1, h2]
  · by_cases hcw : cwZero v = true
    · obtain ⟨h3, h4⟩ := (cwZero_iff v).mp hcw
      have hmode : classify v = .rgb3 := by simp [classify, hrgb, hcw]
      simp [kindOf, encode, hmode, modeCode, h3, h4]
    · have hmode : classify v = .all5 := by simp [classify, hrgb, hcw]
      simp [kindOf, encode, hmode, modeCode]

/-- An instruction at the frame port transmits the bytes of its word. -/
theorem exec_of_frame_port {i : Instr} (h : (encode i).port = .frame) (s : State) :
    exec i s = transmit (encode i).bytes s := by
  cases i
  case standby | rgb3 | cw2 | all5 => rfl
  all_goals cases h

/-- The frame kind of a `WRITE` transmits the frame the `WRITE` builds. -/
theorem exec_kindOf (v : Five Half) (r c : Nibble) (s : State) :
    exec (kindOf v r c) s = transmit (frameContent (encodeFrame v r c)) s := by
  rw [exec_of_frame_port (by rw [encode_kindOf]), encode_kindOf]

theorem exec_write_of_ready {s : State} {v : Five Half} {r c : Nibble} (hidle : s.seq = .idle)
    (hcon : s.constructed = true) (hr : s.rgbPl = some r) (hc : s.cwPl = some c) :
    exec (.write v) s = .next (s.startTx (encodeFrame v r c)) :=
  (whenReady_of_ready hidle hcon).trans (withLevels_of_some hr hc)

/-- Settles O19: both grains transmit the content of the encoded frame. -/
theorem writeEqualsItsFrameKindTakenWhole : Obligations.WriteEqualsItsFrameKindTakenWhole := by
  intro s v r c hidle hcon hr hc
  refine ⟨_, exec_write_of_ready hidle hcon hr hc, ?_⟩
  rw [exec_kindOf]
  exact stepN_startTx hidle hcon (frameContent_length v r c) (encodeFrame_lookup v r c)

end Sys2Proof.Machine
end

section
/-! PROOFS. The power levels between `SET_POWER_LEVELS` and the next `WRITE` (R43, R60, R110). -/

namespace Sys2Proof.Machine

/-- A stored level is its operand modulo 16 (R60). -/
theorem maskLevel_toNat (x : Byte) : (maskLevel x).toNat = x.toNat % 16 := by
  simp [maskLevel, BitVec.extractLsb'_toNat]

theorem exec_setPowerLevels_of_ready {s : State} (rgb cw : Byte) (hidle : s.seq = .idle)
    (hcon : s.constructed = true) :
    exec (.setPowerLevels rgb cw) s = .next (s.setLevels (maskLevel rgb) (maskLevel cw)) :=
  whenReady_of_ready hidle hcon

/-- Settles O26: the state with the new levels is still constructed and idle, so the `WRITE` runs in it and reads them;
both instructions leave the trace. -/
theorem newLevelsEnterTheNextFrame : Obligations.NewLevelsEnterTheNextFrame := by
  intro s v rgb cw hidle hcon
  let t := s.setLevels (maskLevel rgb) (maskLevel cw)
  have hset : exec (.setPowerLevels rgb cw) s = .next t := exec_setPowerLevels_of_ready rgb cw hidle hcon
  have hwrite : exec (.write v) t = .next (t.startTx (encodeFrame v (maskLevel rgb) (maskLevel cw))) :=
    exec_write_of_ready hidle hcon rfl rfl
  exact ⟨t, _, _, _, maskLevel_toNat rgb, maskLevel_toNat cw, hset, rfl, hwrite, rfl, rfl⟩

end Sys2Proof.Machine
end

section
/-! PROOFS. Each format's decoder and encoder are inverse to each other (spec/30_encoding.md R46 to R55): the fields of a
word, a byte on the wire, a frame, a host command, a line operation. -/

namespace Sys2Proof.Machine

/-! ### Bytes and numbers -/

@[simp] theorem joinSingle_singleByte (f : Single) :
    joinSingle (singleByte f 3) (singleByte f 2) (singleByte f 1) (singleByte f 0) = f := by
  unfold joinSingle singleByte
  rw [BitVec.extractLsb'_append_extractLsb'_eq_extractLsb' (show 8 * 3 = 8 * 2 + 8 from rfl),
    BitVec.extractLsb'_append_extractLsb'_eq_extractLsb' (show 8 * 2 = 8 * 1 + 8 from rfl),
    BitVec.extractLsb'_append_extractLsb'_eq_extractLsb' (show 8 * 1 = 8 * 0 + 8 from rfl)]
  exact BitVec.extractLsb'_eq_self

@[simp] theorem singleBytes_joinSingle (a b c d : Byte) : singleBytes (joinSingle a b c d) = [a, b, c, d] := by
  have h0 : singleByte (joinSingle a b c d) 0 = d := BitVec.extractLsb'_append_eq_right
  have h1 : singleByte (joinSingle a b c d) 1 = c :=
    (BitVec.extractLsb'_append_eq_of_le (by decide)).trans BitVec.extractLsb'_append_eq_right
  have h2 : singleByte (joinSingle a b c d) 2 = b :=
    (BitVec.extractLsb'_append_eq_of_le (by decide)).trans
      ((BitVec.extractLsb'_append_eq_of_le (by decide)).trans BitVec.extractLsb'_append_eq_right)
  have h3 : singleByte (joinSingle a b c d) 3 = a :=
    (BitVec.extractLsb'_append_eq_of_le (by decide)).trans
      ((BitVec.extractLsb'_append_eq_of_le (by decide)).trans BitVec.extractLsb'_append_eq_left)
  rw [singleBytes, h3, h2, h1, h0]

/-- Bytes are those of their number, as many of them. -/
theorem bytesOf_number (bs : List Byte) : bytesOf bs.length (number bs) = bs := by
  induction bs using List.reverseRecOn with
  | nil => rfl
  | append_singleton bs b ih =>
    have hb : b.toNat < 256 := b.isLt
    have hdiv : (number bs * 256 + b.toNat) / 256 = number bs := by omega
    have hmod : BitVec.ofNat 8 (number bs * 256 + b.toNat) = b :=
      BitVec.eq_of_toNat_eq (by rw [BitVec.toNat_ofNat]; omega)
    rw [number_snoc, List.length_append, List.length_singleton, bytesOf, hdiv, hmod, ih]

/-- A number of `n` codes' width is made of the codes of its line operations. -/
theorem packCodes_unpackCodes (n w : Nat) (h : w < 4 ^ n) : packCodes (unpackCodes n w) = w := by
  induction n generalizing w with
  | zero => simp [unpackCodes, packCodes] at h ⊢; omega
  | succ n ih =>
    have hw : w / 4 < 4 ^ n := Nat.div_lt_of_lt_mul (by rwa [Nat.pow_succ, Nat.mul_comm] at h)
    have hlow : lineCode (lineOfCode w) = w % 4 := by
      simp only [lineCode, lineOfCode, Nat.testBit_eq_decide_div_mod_eq]
      rcases Nat.mod_two_eq_zero_or_one w with h0 | h0 <;>
        rcases Nat.mod_two_eq_zero_or_one (w / 2) with h1 | h1 <;> simp [h0, h1] <;> omega
    rw [unpackCodes, packCodes_snoc, ih _ hw, hlow]
    omega

/-! ### A byte on the wire (R52) -/

theorem pulseLevels_flatMap_pulse (levels : List Bool) : pulseLevels (levels.flatMap pulse) = some levels := by
  induction levels with
  | nil => rfl
  | cons x levels ih => simp [pulse, pulseLevels, ih]

/-- Only a list of pulses has levels. -/
theorem flatMap_pulse_of_pulseLevels {ops : List LineOp} {levels : List Bool} (h : pulseLevels ops = some levels) :
    levels.flatMap pulse = ops := by
  induction ops using pulseLevels.induct generalizing levels with
  | case1 => cases h; rfl
  | case2 a d c rest hshape ih =>
    obtain ⟨rfl, hd, rfl⟩ := hshape
    obtain ⟨line, level⟩ := d
    cases hd
    simp only [pulseLevels, true_and, if_true, Option.map_eq_some_iff] at h
    obtain ⟨tail, htail, rfl⟩ := h
    simp [pulse, ih htail]
  | case3 a d c rest hshape => simp [pulseLevels, hshape] at h
  | case4 ops hnil hcons => simp [pulseLevels] at h

/-- The operations of a byte are nine pulses: its bits, then the trailer's high level (R77 to R79). -/
theorem byteOps_eq_pulses (b : Byte) : byteOps b = (bitsOf b ++ [true]).flatMap pulse := rfl

theorem decodeLevels_bitsOf (b : Byte) : decodeLevels (some (bitsOf b ++ [true])) = .ok (.byte b) := by
  have hbits : byteOfBits (b.getLsbD 7) (b.getLsbD 6) (b.getLsbD 5) (b.getLsbD 4) (b.getLsbD 3) (b.getLsbD 2)
      (b.getLsbD 1) (b.getLsbD 0) = b := by
    apply BitVec.eq_of_getLsbD_eq
    intro i hi
    simp only [byteOfBits, BitVec.getLsbD_append]
    interval_cases i <;> simp
  exact congrArg (fun b => Except.ok (Instr.byte b)) hbits

theorem bitsOf_byteOfBits (b7 b6 b5 b4 b3 b2 b1 b0 : Bool) :
    bitsOf (byteOfBits b7 b6 b5 b4 b3 b2 b1 b0) = [b7, b6, b5, b4, b3, b2, b1, b0] := by
  simp only [bitsOf, byteOfBits, BitVec.getLsbD_append, List.map_cons, List.map_nil]
  simp

/-- Only a byte's bits and the trailer's high level decode. -/
theorem eq_bitsOf_of_decodeLevels {levels : Option (List Bool)} {i : Instr} (h : decodeLevels levels = .ok i) :
    ∃ b, i = .byte b ∧ levels = some (bitsOf b ++ [true]) := by
  unfold decodeLevels at h
  split at h
  · cases h
    exact ⟨_, rfl, by rw [bitsOf_byteOfBits]; rfl⟩
  · cases h

theorem decodeWire_encode (b : Byte) : decodeWire (encode (.byte b)).bytes = .ok (.byte b) := by
  have hlt : packCodes (byteOps b) < 4 ^ 27 := packCodes_lt (byteOps b)
  have hlen : (encode (.byte b)).bytes.length = 7 := bytesOf_length 7 _
  have hnum : number (encode (.byte b)).bytes = packCodes (byteOps b) := number_bytesOf 7 _ (by omega)
  have hops : unpackCodes 27 (packCodes (byteOps b)) = byteOps b := unpackCodes_packCodes (byteOps b)
  rw [decodeWire, if_neg (by omega), if_neg (by omega), hnum, hops, byteOps_eq_pulses, pulseLevels_flatMap_pulse,
    decodeLevels_bitsOf]

theorem encode_of_decodeWire {bs : List Byte} {i : Instr} (h : decodeWire bs = .ok i) : encode i = ⟨.wire, bs⟩ := by
  unfold decodeWire at h
  split at h
  · cases h
  split at h
  · cases h
  rename_i hlen hnum
  obtain ⟨b, rfl, hlevels⟩ := eq_bitsOf_of_decodeLevels h
  have hops : byteOps b = unpackCodes 27 (number bs) := flatMap_pulse_of_pulseLevels hlevels
  have hcodes : packCodes (byteOps b) = number bs := by rw [hops, packCodes_unpackCodes 27 _ (by omega)]
  have hbytes : bytesOf 7 (number bs) = bs := not_not.mp hlen ▸ bytesOf_number bs
  rw [encode, hcodes, hbytes]

/-! ### The bytes of a frame (R46 to R51) -/

theorem frameBytes_eq (m : Mode) (r c : Nibble) (p q s t u : Chan) :
    frameBytes m r c p q s t u = addressField m :: levelByte r c :: [p, q, s, t, u].flatMap chanBytes := rfl

@[simp] theorem highNibble_levelByte (r c : Nibble) : (levelByte r c).extractLsb' 4 4 = r :=
  BitVec.extractLsb'_append_eq_left

@[simp] theorem lowNibble_levelByte (r c : Nibble) : (levelByte r c).extractLsb' 0 4 = c :=
  BitVec.extractLsb'_append_eq_right

theorem levelByte_nibbles (l : Byte) : levelByte (l.extractLsb' 4 4) (l.extractLsb' 0 4) = l :=
  BitVec.extractLsb'_append_extractLsb'

/-- `RRRRCCCC` as a number (R49). -/
theorem levelByte_eq_ofNat (r c : Nibble) : levelByte r c = BitVec.ofNat 8 (16 * r.toNat + c.toNat) := by
  have hr : r.toNat < 16 := r.isLt
  have hc : c.toNat < 16 := c.isLt
  apply BitVec.eq_of_toNat_eq
  rw [levelByte, BitVec.toNat_append, ← Nat.shiftLeft_add_eq_or_of_lt c.isLt, Nat.shiftLeft_eq, BitVec.toNat_ofNat]
  omega

theorem modeCode_modeOf (mm : BitVec 2) : modeCode (modeOf mm) = mm := by revert mm; decide

/-- An address byte with the class marker, bit 5 clear and output offset 0 is that of its mode (R47). -/
theorem addressField_modeOf {a : Byte} (hdd : a.extractLsb' 6 2 = 0b11#2) (hbit5 : a.extractLsb' 5 1 = 0#1)
    (hnnn : a.extractLsb' 0 3 = 0#3) : addressField (modeOf (a.extractLsb' 3 2)) = a := by
  rw [addressField, modeCode_modeOf, ← hdd, ← hbit5, ← hnnn,
    BitVec.extractLsb'_append_extractLsb'_eq_extractLsb' (show 6 = 5 + 1 from rfl),
    BitVec.extractLsb'_append_extractLsb'_eq_extractLsb' (show 5 = 3 + 2 from rfl),
    BitVec.extractLsb'_append_extractLsb'_eq_extractLsb' (show 3 = 0 + 3 from rfl)]
  exact BitVec.extractLsb'_eq_self

/-- A channel field as two numbers, the high byte first (R35, R51). -/
theorem chanBytes_eq_ofNat (c : Chan) :
    chanBytes c = [BitVec.ofNat 8 (c.toNat / 256), BitVec.ofNat 8 (c.toNat % 256)] := by
  have hhigh : highByte (chanField c) = BitVec.ofNat 8 (c.toNat / 256) := by
    rw [← chanField_toNat c, ← highByte_toNat, BitVec.ofNat_toNat, BitVec.setWidth_eq]
  have hlow : lowByte (chanField c) = BitVec.ofNat 8 (c.toNat % 256) := by
    rw [← chanField_toNat c, ← lowByte_toNat, BitVec.ofNat_toNat, BitVec.setWidth_eq]
  rw [chanBytes, hhigh, hlow]

theorem highByte_chanField_le (c : Chan) : (highByte (chanField c)).toNat ≤ 3 := by
  have hc := c.isLt
  rw [highByte_toNat, chanField_toNat]
  omega

/-- A channel field with bits 15:10 clear is that of its ten low bits (R50). -/
theorem chanBytes_chanOf {h l : Byte} (hfits : chanFits h = true) : chanBytes (chanOf h l) = [h, l] := by
  have hh : h.toNat < 256 := h.isLt
  have hclear : h.toNat / 4 % 64 = 0 := by
    simpa [chanFits, ← BitVec.toNat_inj, BitVec.extractLsb'_toNat, Nat.shiftRight_eq_div_pow] using hfits
  have hhigh : h.toNat = (joinBytes h l).toNat / 256 := by rw [← highByte_toNat, highByte_join]
  have hfield : chanField (chanOf h l) = joinBytes h l :=
    BitVec.eq_of_toNat_eq (by rw [chanField_toNat, chanOf, BitVec.toNat_setWidth]; omega)
  rw [chanBytes, hfield, highByte_join, lowByte_join]

/-! ### Frames (R46 to R50, R53) -/

/-- The frame decoder reads back the fields that a frame is made of. -/
theorem decodeFrame_frameBytes (m : Mode) (r c : Nibble) (p q s t u : Chan) :
    decodeFrame (frameBytes m r c p q s t u) = decodeKind m r c p q s t u := by
  have hdd : (addressField m).extractLsb' 6 2 = 0b11#2 := by cases m <;> decide
  have hbit5 : (addressField m).extractLsb' 5 1 = 0#1 := by cases m <;> decide
  have hnnn : (addressField m).extractLsb' 0 3 = 0#3 := by cases m <;> decide
  have hmode : modeOf ((addressField m).extractLsb' 3 2) = m := by cases m <;> decide
  simp [frameBytes, chanBytes, decodeFrame, hdd, hbit5, hnnn, hmode]

/-- Only bytes made of a frame's fields decode as a frame. -/
theorem frameBytes_of_decodeFrame {bs : List Byte} {i : Instr} (h : decodeFrame bs = .ok i) :
    ∃ m r c p q s t u, bs = frameBytes m r c p q s t u ∧ decodeKind m r c p q s t u = .ok i := by
  unfold decodeFrame at h
  split at h
  · split at h
    · cases h
    split at h
    · cases h
    split at h
    · cases h
    split at h
    · cases h
    rename_i hdd hbit5 hnnn hfits
    simp only [Bool.not_eq_true, Bool.not_eq_false', Bool.and_eq_true] at hfits
    obtain ⟨⟨⟨⟨hf0, hf1⟩, hf2⟩, hf3⟩, hf4⟩ := hfits
    refine ⟨_, _, _, _, _, _, _, _, ?_, h⟩
    rw [frameBytes, addressField_modeOf (not_not.mp hdd) (not_not.mp hbit5) (not_not.mp hnnn), levelByte_nibbles,
      chanBytes_chanOf hf0, chanBytes_chanOf hf1, chanBytes_chanOf hf2, chanBytes_chanOf hf3, chanBytes_chanOf hf4]
    rfl
  · cases h

/-- A frame's fields are those of its kind: the decoder has checked that an inactive group's are 0 (R48). -/
theorem encode_of_decodeKind {m : Mode} {r c : Nibble} {p q s t u : Chan} {i : Instr}
    (h : decodeKind m r c p q s t u = .ok i) : encode i = ⟨.frame, frameBytes m r c p q s t u⟩ := by
  unfold decodeKind at h
  cases m
  case all5 => cases h; rfl
  all_goals
    dsimp only at h
    split at h
    · cases h
    split at h
    · cases h
    rename_i hlevel hchan
    cases h
    simp only [not_or, not_not] at hlevel hchan
    simp [encode, hlevel, hchan]

theorem encode_of_decodeFrame {bs : List Byte} {i : Instr} (h : decodeFrame bs = .ok i) :
    encode i = ⟨.frame, bs⟩ := by
  obtain ⟨m, r, c, p, q, s, t, u, rfl, hkind⟩ := frameBytes_of_decodeFrame h
  exact encode_of_decodeKind hkind

/-! ### Host commands (R54) and line operations (R55) -/

theorem encode_of_decodeH1 {args : List Byte} {i : Instr} (h : decodeH1 args = .ok i) :
    encode i = ⟨.host, 1#8 :: args⟩ := by
  unfold decodeH1 at h
  split at h
  · cases h; rfl
  · cases h

theorem encode_of_decodeH2 {args : List Byte} {i : Instr} (h : decodeH2 args = .ok i) :
    encode i = ⟨.host, 2#8 :: args⟩ := by
  unfold decodeH2 at h
  split at h
  · cases h; simp [encode]
  · cases h

theorem encode_of_decodeH3 {args : List Byte} {i : Instr} (h : decodeH3 args = .ok i) :
    encode i = ⟨.host, 3#8 :: args⟩ := by
  unfold decodeH3 at h
  split at h
  · cases h; simp [encode]
  · cases h

theorem encode_of_decodeHost {bs : List Byte} {i : Instr} (h : decodeHost bs = .ok i) : encode i = ⟨.host, bs⟩ := by
  unfold decodeHost at h
  split at h
  · cases h
  rename_i op args
  by_cases h0 : op = 0#8
  · subst h0
    by_cases hargs : args = []
    · subst hargs; cases h; rfl
    · simp [hargs] at h
  by_cases h1 : op = 1#8
  · subst h1; exact encode_of_decodeH1 h
  by_cases h2 : op = 2#8
  · subst h2; exact encode_of_decodeH2 h
  by_cases h3 : op = 3#8
  · subst h3; exact encode_of_decodeH3 h
  simp [h0, h1, h2, h3] at h

theorem encode_of_decodeLine {bs : List Byte} {i : Instr} (h : decodeLine bs = .ok i) : encode i = ⟨.line, bs⟩ := by
  unfold decodeLine at h
  split at h
  · rename_i b
    by_cases h0 : b = 0b00#8
    · subst h0; cases h; rfl
    by_cases h1 : b = 0b01#8
    · subst h1; cases h; rfl
    by_cases h2 : b = 0b10#8
    · subst h2; cases h; rfl
    by_cases h3 : b = 0b11#8
    · subst h3; cases h; rfl
    simp [h0, h1, h2, h3] at h
  · cases h

end Sys2Proof.Machine
end

section
/-! PROOFS. The statements about the encodings: the two directions of the round trip, the words as numbers, the frames the
encoder builds and the frame kinds that transmit them. -/

namespace Sys2Proof.Machine

/-! ### Decoding -/

/-- Settles O49, constructor by constructor. -/
theorem decodeOfEncodeIsTheInstruction : Obligations.DecodeOfEncodeIsTheInstruction := by
  intro i
  cases i with
  | construct | setPowerLevels | dataLow | dataHigh | clkLow | clkHigh => rfl
  | write v => simp [decode, encode, decodeHost, decodeH2]
  | writeNormalized f => simp [decode, encode, decodeHost, decodeH3, singleBytes]
  | standby => exact decodeFrame_frameBytes .standby 0#4 0#4 0#10 0#10 0#10 0#10 0#10
  | rgb3 r p q s => exact (decodeFrame_frameBytes .rgb3 r 0#4 p q s 0#10 0#10).trans (by simp [decodeKind])
  | cw2 c t u => exact (decodeFrame_frameBytes .cw2 0#4 c 0#10 0#10 0#10 t u).trans (by simp [decodeKind])
  | all5 r c p q s t u => exact decodeFrame_frameBytes .all5 r c p q s t u
  | byte b => exact decodeWire_encode b

/-- Settles O50, port by port. -/
theorem onlyEncodedWordsDecode : Obligations.OnlyEncodedWordsDecode := by
  rintro ⟨port, bs⟩ i h
  cases port with
  | host => exact encode_of_decodeHost h
  | frame => exact encode_of_decodeFrame h
  | wire => exact encode_of_decodeWire h
  | line => exact encode_of_decodeLine h

/-- Settles O53: what decodes is an encoding, and every encoding has these fields. -/
theorem patternsNeverGeneratedAreRejected : Obligations.PatternsNeverGeneratedAreRejected := by
  refine ⟨fun a l hs i h => ?_, fun b i h => ?_, fun b bs i h => ?_⟩
  · obtain ⟨m, r, c, p, q, s, t, u, hbytes, -⟩ := frameBytes_of_decodeFrame h
    obtain ⟨rfl, rfl, rfl⟩ : a = addressField m ∧ l = levelByte r c ∧ hs = [p, q, s, t, u].flatMap chanBytes := by
      simpa [frameBytes_eq] using hbytes
    refine ⟨by cases m <;> decide, by cases m <;> decide, by cases m <;> decide, rfl, fun k hk => ?_⟩
    interval_cases k <;> exact highByte_chanField_le _
  · have hword : encode i = ⟨.line, [b]⟩ := onlyEncodedWordsDecode _ _ h
    cases i with
    | dataLow | dataHigh | clkLow | clkHigh => cases hword; decide
    | _ => cases hword
  · have hword : encode i = ⟨.host, b :: bs⟩ := onlyEncodedWordsDecode _ _ h
    cases i with
    | construct | setPowerLevels | write | writeNormalized => cases hword; decide
    | _ => cases hword

/-- Settles O52: seven closed evaluations of the decoder. -/
theorem wordsOfTheSpecDecode : Obligations.WordsOfTheSpecDecode := by
  unfold Obligations.WordsOfTheSpecDecode
  decide

/-! ### Words as numbers (R54) -/

theorem number_append_half (bs : List Byte) (v : Half) :
    number (bs ++ [highByte v, lowByte v]) = number bs * 2 ^ 16 + v.toNat := by
  simp only [number, List.foldl_append, List.foldl_cons, List.foldl_nil, highByte_toNat, lowByte_toNat]
  omega

theorem number_append_singleBytes (bs : List Byte) (f : Single) :
    number (bs ++ singleBytes f) = number bs * 2 ^ 32 + f.toNat := by
  have hf := f.isLt
  simp only [number, singleBytes, singleByte, List.foldl_append, List.foldl_cons, List.foldl_nil,
    BitVec.extractLsb'_toNat, Nat.shiftRight_eq_div_pow]
  omega

/-- Settles O51: the bytes of a word are its selector's and then, operand by operand, its operands'. -/
theorem hostCommandWordsAsNumbers : Obligations.HostCommandWordsAsNumbers := by
  refine ⟨rfl, fun rgb cw => ?_, fun v => ?_, fun f => ?_⟩
  · have hbytes : (encode (.setPowerLevels rgb cw)).bytes = [1#8] ++ [rgb] ++ [cw] := rfl
    have hselector : number [1#8] = 1 := rfl
    rw [hbytes, number_snoc, number_snoc, hselector]
    omega
  · have hbytes : (encode (.write v)).bytes =
        [2#8] ++ [highByte v.c0, lowByte v.c0] ++ [highByte v.c1, lowByte v.c1] ++ [highByte v.c2, lowByte v.c2] ++
          [highByte v.c3, lowByte v.c3] ++ [highByte v.c4, lowByte v.c4] := rfl
    have hselector : number [2#8] = 2 := rfl
    simp only [hbytes, number_append_half, hselector]
    omega
  · have hbytes : (encode (.writeNormalized f)).bytes =
        [3#8] ++ singleBytes f.c0 ++ singleBytes f.c1 ++ singleBytes f.c2 ++ singleBytes f.c3 ++
          singleBytes f.c4 := rfl
    have hselector : number [3#8] = 3 := rfl
    simp only [hbytes, number_append_singleBytes, hselector]
    omega

/-! ### The frames of the encoder and of the frame kinds -/

/-- Clamping keeps an operand from becoming 0 (R65). -/
theorem chanValue_eq_zero_iff (x : Half) : chanValue x = 0#10 ↔ x = 0#16 := by
  refine ⟨fun h => ?_, fun h => h ▸ chanValue_zero⟩
  have hclamp : clamp x = 0#16 := by rw [← chanField_chanValue, h]; rfl
  unfold clamp at hclamp
  split at hclamp
  · exact hclamp
  · cases hclamp

theorem chanValue_bne_zero (x : Half) : (chanValue x != 0#10) = !(x == 0#16) :=
  congrArg not (Bool.eq_iff_iff.mpr (by simp [chanValue_eq_zero_iff]))

/-- The RGB group has a nonzero channel in the frame exactly when it has one in the operands. -/
theorem rgbChannel_ne_zero (v : Five Half) :
    (chanValue v.c0 != 0#10 || chanValue v.c1 != 0#10 || chanValue v.c2 != 0#10) = !rgbZero v := by
  simp only [rgbZero, Bool.not_and, chanValue_bne_zero]

/-- The CW group has a nonzero channel in the frame exactly when it has one in the operands. -/
theorem cwChannel_ne_zero (v : Five Half) : (chanValue v.c3 != 0#10 || chanValue v.c4 != 0#10) = !cwZero v := by
  simp only [cwZero, Bool.not_and, chanValue_bne_zero]

/-- The frame kind of a `WRITE` meets its row's condition: each active group has a nonzero channel (R66). -/
theorem kindOf_wf (v : Five Half) (r c : Nibble) : (kindOf v r c).wf = true := by
  unfold kindOf classify
  cases hrgb : rgbZero v <;> cases hcw : cwZero v <;>
    simp [Instr.wf, rgbChannel_ne_zero, cwChannel_ne_zero, hrgb, hcw]

/-- Settles O15. -/
theorem encoderBuildsTheWordOfItsFrameKind : Obligations.EncoderBuildsTheWordOfItsFrameKind :=
  fun v r c => ⟨kindOf_wf v r c, encode_kindOf v r c⟩

/-- The transmission of a frame given by its fields, its bytes as numbers. -/
theorem transmit_frameBytes_of_ready {s : State} (m : Mode) (r c : Nibble) (p q w t u : Chan) {a l : Byte}
    (hidle : s.seq = .idle) (hcon : s.constructed = true) (ha : addressField m = a) (hl : levelByte r c = l) :
    transmit (frameBytes m r c p q w t u) s = .next { s with
      dataOut := some true, clkOut := some true, frame := [],
      trace := s.trace ++ txOps ([a, l] ++ [p, q, w, t, u].flatMap
        (fun x => [BitVec.ofNat 8 (x.toNat / 256), BitVec.ofNat 8 (x.toNat % 256)])) } := by
  rw [transmit_of_ready _ hidle hcon, frameBytes_eq, ha, hl, funext chanBytes_eq_ofNat]
  rfl

/-- Settles O31: every frame kind is `transmit` of its frame. -/
theorem frameKindsTransmitTheirFrame : Obligations.FrameKindsTransmitTheirFrame := by
  intro s r c p q w t u hidle hcon
  exact ⟨transmit_frameBytes_of_ready .standby 0#4 0#4 0#10 0#10 0#10 0#10 0#10 hidle hcon rfl rfl,
    transmit_frameBytes_of_ready .rgb3 r 0#4 p q w 0#10 0#10 hidle hcon rfl (levelByte_eq_ofNat r 0#4),
    transmit_frameBytes_of_ready .cw2 0#4 c 0#10 0#10 0#10 t u hidle hcon rfl (by simp [levelByte_eq_ofNat]),
    transmit_frameBytes_of_ready .all5 r c p q w t u hidle hcon rfl (levelByte_eq_ofNat r c)⟩

end Sys2Proof.Machine
end

section
/-! PROOFS. The configuration operations (R59, R60), which states accept a host command (R61), and why a constructed
block never sticks (R93). -/

namespace Sys2Proof.Machine

/-! ### `CONSTRUCT` and `SET_POWER_LEVELS` -/

/-- The two orders `CONSTRUCT_ORDER` leaves open (D6). -/
theorem constructOps_eq (order : Config.ConstructOrder) :
    constructOps order = [⟨.data, true⟩, ⟨.clk, true⟩] ∨ constructOps order = [⟨.clk, true⟩, ⟨.data, true⟩] := by
  cases order
  · exact .inl rfl
  · exact .inr rfl

theorem exec_construct_of_idle {s : State} (hidle : s.seq = .idle) :
    exec .construct s = .next { s with
      rgbPl := some 0x2#4, cwPl := some 0x4#4, dataOut := some true, clkOut := some true,
      constructed := true, trace := s.trace ++ constructOps Config.constructOrder } := by
  rw [exec, execConstruct, whenIdle_of_idle hidle, emitAll_eq, latchAfter_constructOps, latchAfter_constructOps]
  rfl

/-- Settles O1: the line operations are those of the one `CONSTRUCT_ORDER` the machine has. -/
theorem constructDrivesBothLinesHighAndSetsDefaults : Obligations.ConstructDrivesBothLinesHighAndSetsDefaults :=
  ⟨constructOps Config.constructOrder, constructOps_eq _, fun _ hidle => exec_construct_of_idle hidle⟩

/-- Settles O3. -/
theorem setPowerLevelsStoresLowFourBits : Obligations.SetPowerLevelsStoresLowFourBits :=
  fun _ rgb cw hidle hcon => ⟨maskLevel rgb, maskLevel cw, maskLevel_toNat rgb, maskLevel_toNat cw,
    exec_setPowerLevels_of_ready rgb cw hidle hcon⟩

/-! ### The states that accept a host command -/

/-- A host command completes in every state R61 lets it run in, with any operands: only a write reads the levels, and
there they have a value. -/
theorem exec_host_completes {i : Instr} {s : State} (hport : Laws.Layout.portOf i = .host) (hidle : s.seq = .idle)
    (hready : i = .construct ∨ s.constructed = true)
    (hlev : s.constructed = true → s.rgbPl.isSome ∧ s.cwPl.isSome) : ∃ t, exec i s = .next t := by
  obtain rfl | hcon := hready
  · exact ⟨_, exec_construct_of_idle hidle⟩
  obtain ⟨hr, hc⟩ := hlev hcon
  obtain ⟨r, hr⟩ := Option.isSome_iff_exists.mp hr
  obtain ⟨c, hc⟩ := Option.isSome_iff_exists.mp hc
  cases i with
  | construct => exact ⟨_, exec_construct_of_idle hidle⟩
  | setPowerLevels rgb cw => exact ⟨_, exec_setPowerLevels_of_ready rgb cw hidle hcon⟩
  | write v => exact ⟨_, exec_write_of_ready hidle hcon hr hc⟩
  | writeNormalized f => exact ⟨_, exec_write_of_ready (v := mapFive normOf f) hidle hcon hr hc⟩
  | _ => cases hport

/-- Settles O4: the guards refuse every other state, and in the states they accept a host command completes. -/
theorem hostCommandsAreLegalExactlyWhenReady : Obligations.HostCommandsAreLegalExactlyWhenReady := by
  intro s i hlev hcommand
  have hport : Laws.Layout.portOf i = .host := by
    obtain rfl | ⟨rgb, cw, rfl⟩ | ⟨v, rfl⟩ | ⟨f, rfl⟩ := hcommand <;> rfl
  refine ⟨⟨?_, ?_⟩, fun hbusy => exec_of_busy i hbusy, fun hidle hun hi => exec_of_unconstructed hi hidle hun⟩
  · rintro ⟨t, h⟩
    exact ⟨exec_next_idle h, or_iff_not_imp_left.mpr fun hi => (exec_next_ready hi h).2⟩
  · rintro ⟨hidle, hready⟩
    exact exec_host_completes hport hidle hready hlev

/-! ### Progress -/

/-- No instruction touches the words waiting. -/
theorem exec_pending {s t : State} {i : Instr} (h : exec i s = .next t) : t.pending = s.pending := by
  cases exec_next h with
  | construct => simp
  | setPowerLevels => rfl
  | write => rfl
  | drive => simp
  | transmit => simp

/-- A step takes a word from the front of those waiting, or none. -/
theorem step_pending_suffix {s t : State} (h : step s = .next t) : t.pending <:+ s.pending := by
  obtain ⟨-, -, rfl⟩ | ⟨-, p, rest, i, hpend, -, hexec⟩ | ⟨p, op, -, -, rfl⟩ := step_next h
  · exact List.suffix_rfl
  · rw [exec_pending hexec, hpend]
    exact List.suffix_cons p rest
  · exact List.suffix_rfl

theorem step_idle_wait {s : State} (hidle : s.seq = .idle) (hpend : s.pending = []) : step s = .next s := by
  simp [step, hidle, idleStep, hpend]

theorem step_idle_run {s : State} {p : Packet} {rest : List Packet} {i : Instr} (hidle : s.seq = .idle)
    (hpend : s.pending = p :: rest) (hdec : decode p = .ok i) : step s = exec i (s.setPending rest) := by
  simp [step, hidle, idleStep, hpend, hdec]

/-- Once constructed a step completes: in `IDLE` it waits or runs a host command in a state that accepts it, and in a
transmission every byte it may read is there, for the frame is one the encoder built. -/
theorem step_completes {s : State} (hinv : MachineInv s) (hcon : s.constructed = true) (hdecs : Decodable s.pending) :
    ∃ t, step s = .next t := by
  cases hseq : s.seq with
  | idle =>
    cases hpend : s.pending with
    | nil => exact ⟨s, step_idle_wait hseq hpend⟩
    | cons p rest =>
      have hp : p ∈ s.pending := hpend ▸ List.mem_cons_self
      obtain ⟨i, hdec⟩ := hdecs p hp
      rw [step_idle_run hseq hpend hdec]
      exact exec_host_completes (portOf_of_decode_host (hinv.hostOnly p hp) hdec) hseq (.inr hcon) hinv.levels
  | tx p =>
    obtain ⟨-, ⟨v, r, c, henc⟩, -, -⟩ := hinv.transmitting p hseq
    obtain ⟨op, ho, -⟩ :=
      lineAt_eq_txOps p (encodeFrame v r c) _ (frameContent_length v r c) (encodeFrame_lookup v r c)
    exact ⟨_, step_tx hseq (henc ▸ ho)⟩

/-- Settles O47: the step completes, and the words still waiting after it were waiting before. -/
theorem stepsNeverStickOnceConstructed : Obligations.StepsNeverStickOnceConstructed := by
  intro s hinv hcon hdecs
  obtain ⟨t, h⟩ := step_completes hinv hcon hdecs
  obtain ⟨hstays, -⟩ := nothingHasAValueBeforeConstruction s t h
  exact ⟨t, h, hstays hcon, fun p hp => hdecs p ((step_pending_suffix h).subset hp)⟩

/-! ### The instructions that store nothing -/

/-- `BYTE` and the line operations are lists of line operations presented by themselves (R74, R78). -/
theorem exec_eq_drive {i : Instr}
    (hi : (∃ b, i = .byte b) ∨ i = .dataLow ∨ i = .dataHigh ∨ i = .clkLow ∨ i = .clkHigh) :
    ∃ ops, exec i = drive ops := by
  obtain ⟨b, rfl⟩ | rfl | rfl | rfl | rfl := hi
  all_goals exact ⟨_, rfl⟩

theorem eq_emitAll_of_exec_drive {i : Instr} {ops : List LineOp} {s t : State} (hi : exec i = drive ops)
    (h : exec i s = .next t) : t = emitAll ops s := by
  obtain ⟨-, -, h⟩ := whenReady_next ((congrFun hi s).symm.trans h)
  cases h
  rfl

/-- An instruction that stores nothing leaves the frame buffer and `SEQ`. -/
theorem exec_frame_seq {i : Instr} {s t : State}
    (hi : i = .construct ∨ (∃ rgb cw, i = .setPowerLevels rgb cw) ∨ ∃ ops, exec i = drive ops)
    (h : exec i s = .next t) : t.frame = s.frame ∧ t.seq = s.seq := by
  obtain rfl | ⟨rgb, cw, rfl⟩ | ⟨ops, hdrive⟩ := hi
  · cases (whenIdle_next h).2
    simp
  · obtain ⟨-, -, h⟩ := whenReady_next h
    cases h
    exact ⟨rfl, rfl⟩
  · simp [eq_emitAll_of_exec_drive hdrive h]

/-- Only `CONSTRUCT` changes `CONSTRUCTED` (R30): every other instruction needs it to be 1 and leaves it so. -/
theorem exec_constructed_eq {i : Instr} {s t : State} (hi : i ≠ .construct) (h : exec i s = .next t) :
    t.constructed = s.constructed :=
  (exec_constructed h).trans (exec_next_ready hi h).2.symm

/-- `SET_POWER_LEVELS` has no line activity (R60). -/
theorem exec_setPowerLevels_lines {rgb cw : Byte} {s t : State} (h : exec (.setPowerLevels rgb cw) s = .next t) :
    t.trace = s.trace ∧ t.dataOut = s.dataOut ∧ t.clkOut = s.clkOut := by
  obtain ⟨-, -, h⟩ := whenReady_next h
  cases h
  exact ⟨rfl, rfl, rfl⟩

/-- A single line operation leaves the other line's latch. -/
theorem exec_data_clkOut {i : Instr} {s t : State} (hi : i = .dataLow ∨ i = .dataHigh) (h : exec i s = .next t) :
    t.clkOut = s.clkOut := by
  obtain ⟨level, hdrive⟩ : ∃ level, exec i = drive [⟨.data, level⟩] := by
    obtain rfl | rfl := hi
    all_goals exact ⟨_, rfl⟩
  rw [eq_emitAll_of_exec_drive hdrive h]
  rfl

theorem exec_clk_dataOut {i : Instr} {s t : State} (hi : i = .clkLow ∨ i = .clkHigh) (h : exec i s = .next t) :
    t.dataOut = s.dataOut := by
  obtain ⟨level, hdrive⟩ : ∃ level, exec i = drive [⟨.clk, level⟩] := by
    obtain rfl | rfl := hi
    all_goals exact ⟨_, rfl⟩
  rw [eq_emitAll_of_exec_drive hdrive h]
  rfl

/-- Settles O32, clause by clause. -/
theorem nonStoringInstructionsLeaveMemory : Obligations.NonStoringInstructionsLeaveMemory := by
  intro s t i hform h
  obtain ⟨hframe, hseq⟩ := exec_frame_seq (hform.imp_right (Or.imp_right exec_eq_drive)) h
  refine ⟨fun a => by rw [hframe], hseq, exec_pending h, fun hi => exec_constructed_eq hi h, ?_, ?_,
    fun hi => exec_data_clkOut hi h, fun hi => exec_clk_dataOut hi h⟩
  · rintro ⟨rgb, cw, rfl⟩
    exact exec_setPowerLevels_lines h
  · intro hi hset
    obtain (rfl | ⟨rgb, cw, rfl⟩) | hlevels := exec_levels h
    · exact absurd rfl hi
    · exact absurd rfl (hset rgb cw)
    · exact hlevels

end Sys2Proof.Machine
end

section
/-! PROOFS. The frame encoder (R62 to R71): the clamp, the mode as the two zero tests, the bytes of a frame by offset,
and what a frame depends on. -/

namespace Sys2Proof.Machine

/-! ### The clamp (R63) and the mode (R65, R66) -/

theorem clamp_toNat (x : Half) : (clamp x).toNat = min x.toNat 1023 := by
  unfold clamp
  split
  · next hlt => exact (Nat.min_eq_left (Nat.le_of_lt_succ hlt)).symm
  · next hge => exact (Nat.min_eq_right (Nat.le_of_succ_le (Nat.not_lt.mp hge))).symm

@[simp] theorem clamp_clamp (x : Half) : clamp (clamp x) = clamp x := if_pos (clamp_toNat_lt x)

theorem clamp_eq_zero_iff (x : Half) : clamp x = 0#16 ↔ x = 0#16 := by
  simp only [← BitVec.toNat_inj, clamp_toNat, BitVec.toNat_ofNat]
  omega

/-- Settles O6. -/
theorem clampSaturatesAt1023 : Obligations.ClampSaturatesAt1023 :=
  fun x => ⟨clamp_toNat x, fun hlt => if_pos hlt, fun hge => by rw [clamp_toNat]; omega⟩

/-- Bit 1 of the mode code says that the CW group is active, bit 0 that the RGB group is. -/
theorem modeCode_classify (v : Five Half) :
    modeCode (classify v) = BitVec.ofBool (!cwZero v) ++ BitVec.ofBool (!rgbZero v) := by
  unfold classify
  cases rgbZero v <;> cases cwZero v <;> rfl

/-- Settles O7: the code is the two zero tests, so each of its four values is one combination of them. -/
theorem modeFollowsWhichGroupsAreZero : Obligations.ModeFollowsWhichGroupsAreZero := by
  intro v
  simp only [← rgbZero_iff, ← cwZero_iff, modeCode_classify]
  cases rgbZero v <;> cases cwZero v <;> decide

theorem rgbZero_mapFive_clamp (v : Five Half) : rgbZero (mapFive clamp v) = rgbZero v := by
  rw [Bool.eq_iff_iff, rgbZero_iff, rgbZero_iff]
  simp only [mapFive, clamp_eq_zero_iff]

theorem cwZero_mapFive_clamp (v : Five Half) : cwZero (mapFive clamp v) = cwZero v := by
  rw [Bool.eq_iff_iff, cwZero_iff, cwZero_iff]
  simp only [mapFive, clamp_eq_zero_iff]

theorem classify_mapFive_clamp (v : Five Half) : classify (mapFive clamp v) = classify v := by
  simp only [classify, rgbZero_mapFive_clamp, cwZero_mapFive_clamp]

/-- Settles O8. -/
theorem modeIsTheSameOnClampedOperands : Obligations.ModeIsTheSameOnClampedOperands :=
  ⟨clamp_eq_zero_iff, classify_mapFive_clamp⟩

/-! ### The bytes of a frame by offset (R64, R67, R68) -/

theorem encodeFrame_lookup_address (v : Five Half) (r c : Nibble) :
    (encodeFrame v r c).lookup 0 = some (addressByte (classify v)) := by
  rw [encodeFrame_cells]
  rfl

theorem encodeFrame_lookup_power (v : Five Half) (r c : Nibble) :
    (encodeFrame v r c).lookup 1 = some (powerByte (classify v) r c) := by
  rw [encodeFrame_cells]
  rfl

theorem encodeFrame_lookup_high (v : Five Half) (r c : Nibble) (i : Fin 5) :
    (encodeFrame v r c).lookup (2 + 2 * i.val) = some (highByte (clamp (channel v i))) := by
  rw [encodeFrame_cells]
  fin_cases i <;> rfl

theorem encodeFrame_lookup_low (v : Five Half) (r c : Nibble) (i : Fin 5) :
    (encodeFrame v r c).lookup (2 + 2 * i.val + 1) = some (lowByte (clamp (channel v i))) := by
  rw [encodeFrame_cells]
  fin_cases i <;> rfl

theorem powerByte_eq_ofNat (m : Mode) (r c : Nibble) :
    powerByte m r c = BitVec.ofNat 8 (16 * (if (modeCode m).getLsbD 0 then r else 0#4).toNat +
      (if (modeCode m).getLsbD 1 then c else 0#4).toNat) := by
  rw [powerByte_eq_levelByte, levelByte_eq_ofNat]

theorem addressByte_eq_ofNat (m : Mode) : addressByte m = BitVec.ofNat 8 (0xC0 + 8 * (modeCode m).toNat) := by
  cases m <;> rfl

/-- Settles O9: the two bytes are those of the mode. -/
theorem addressAndPowerByteOfEachMode : Obligations.AddressAndPowerByteOfEachMode := by
  intro v r c
  rw [encodeFrame_lookup_address, encodeFrame_lookup_power]
  refine ⟨congrArg some (addressByte_eq_ofNat _), ?_, ?_, ?_, ?_⟩
  all_goals
    intro hmode
    rw [hmode, powerByte_eq_ofNat]
    exact ⟨rfl, by simp [modeCode]⟩

/-- Settles O10. -/
theorem channelsArePackedBigEndian : Obligations.ChannelsArePackedBigEndian := by
  intro v r c i
  rw [encodeFrame_lookup_high, encodeFrame_lookup_low, ← clamp_toNat, ← highByte_toNat, ← lowByte_toNat,
    BitVec.ofNat_toNat, BitVec.ofNat_toNat, BitVec.setWidth_eq, BitVec.setWidth_eq]
  exact ⟨rfl, rfl⟩

/-! ### What a frame says of its operands (R71 (d), (e), (h)) -/

theorem addressByte_injective {m m' : Mode} (h : addressByte m = addressByte m') : m = m' := by
  revert h
  cases m <;> cases m' <;> decide

/-- The address byte of a frame determines its mode. -/
theorem classify_of_lookup_address {v : Five Half} {r c : Nibble} (m : Mode)
    (h : (encodeFrame v r c).lookup 0 = some (addressByte m)) : classify v = m := by
  rw [encodeFrame_lookup_address] at h
  exact addressByte_injective (Option.some.inj h)

theorem encodeFrame_lookup_of_rgbZero {v : Five Half} (hrgb : v.c0 = 0#16 ∧ v.c1 = 0#16 ∧ v.c2 = 0#16) (r c : Nibble)
    {a : Nat} (hlo : 2 ≤ a) (hhi : a ≤ 7) : (encodeFrame v r c).lookup a = some 0#8 := by
  obtain ⟨h0, h1, h2⟩ := hrgb
  rw [encodeFrame_cells, h0, h1, h2]
  interval_cases a <;> rfl

theorem encodeFrame_lookup_of_cwZero {v : Five Half} (hcw : v.c3 = 0#16 ∧ v.c4 = 0#16) (r c : Nibble)
    {a : Nat} (hlo : 8 ≤ a) (hhi : a ≤ 11) : (encodeFrame v r c).lookup a = some 0#8 := by
  obtain ⟨h3, h4⟩ := hcw
  rw [encodeFrame_cells, h3, h4]
  interval_cases a <;> rfl

/-- Settles O13: the address byte gives the mode, the mode the power byte and the groups that are zero. -/
theorem addressByteDeterminesInactiveFields : Obligations.AddressByteDeterminesInactiveFields := by
  intro v r c
  obtain ⟨-, hpStandby, hpRgb3, hpCw2, -⟩ := addressAndPowerByteOfEachMode v r c
  obtain ⟨hzStandby, hzRgb3, hzCw2, -⟩ := modeFollowsWhichGroupsAreZero v
  refine ⟨fun h => ?_, fun h => ?_, fun h => ?_⟩
  · have hmode := classify_of_lookup_address .standby h
    obtain ⟨hrgb, hcw⟩ := hzStandby.mp (congrArg modeCode hmode)
    intro a hlo hhi
    obtain rfl | ⟨hlo, hhi⟩ | hlo : a = 1 ∨ (2 ≤ a ∧ a ≤ 7) ∨ 8 ≤ a := by omega
    · exact (hpStandby hmode).2
    · exact encodeFrame_lookup_of_rgbZero hrgb r c hlo hhi
    · exact encodeFrame_lookup_of_cwZero hcw r c hlo hhi
  · have hmode := classify_of_lookup_address .rgb3 h
    obtain ⟨-, hcw⟩ := hzRgb3.mp (congrArg modeCode hmode)
    refine ⟨fun a => encodeFrame_lookup_of_cwZero hcw r c, _, (hpRgb3 hmode).2, ?_⟩
    rw [BitVec.toNat_ofNat]
    omega
  · have hmode := classify_of_lookup_address .cw2 h
    obtain ⟨hrgb, -⟩ := hzCw2.mp (congrArg modeCode hmode)
    refine ⟨fun a => encodeFrame_lookup_of_rgbZero hrgb r c, _, (hpCw2 hmode).2, ?_⟩
    rw [BitVec.toNat_ofNat]
    omega

theorem channel_mapFive (g : Half → Half) (v : Five Half) (i : Fin 5) : channel (mapFive g v) i = g (channel v i) := by
  fin_cases i <;> rfl

theorem five_ext_channel {v w : Five Half} (h : ∀ i, channel v i = channel w i) : v = w := by
  cases v
  cases w
  exact (Five.mk.injEq ..).mpr ⟨h 0, h 1, h 2, h 3, h 4⟩

/-- The encoder sees the clamped operands only. -/
theorem encodeFrame_mapFive_clamp (v : Five Half) (r c : Nibble) :
    encodeFrame (mapFive clamp v) r c = encodeFrame v r c := by
  simp only [encodeFrame_cells, classify_mapFive_clamp]
  simp only [mapFive, clamp_clamp]

/-- Settles O12: a frame holds the two bytes of each clamped channel, and is the frame of the clamped operands. -/
theorem sameFrameIffSameClampedChannels : Obligations.SameFrameIffSameClampedChannels := by
  refine fun v w r c => ⟨fun h i => ?_, fun h => ?_⟩
  · have hhigh := congrArg (Memory.lookup · (2 + 2 * i.val)) h
    have hlow := congrArg (Memory.lookup · (2 + 2 * i.val + 1)) h
    simp only [encodeFrame_lookup_high, Option.some.injEq] at hhigh
    simp only [encodeFrame_lookup_low, Option.some.injEq] at hlow
    rw [← joinBytes_high_low (clamp (channel v i)), hhigh, hlow, joinBytes_high_low]
  · have hclamped : mapFive clamp v = mapFive clamp w :=
      five_ext_channel fun i => by rw [channel_mapFive, channel_mapFive, h i]
    rw [← encodeFrame_mapFive_clamp v, hclamped, encodeFrame_mapFive_clamp]

/-! ### What a frame depends on in the stored levels (R71 (g), R110) -/

theorem powerByte_classify (v : Five Half) (r c : Nibble) :
    powerByte (classify v) r c = levelByte (if rgbZero v then 0#4 else r) (if cwZero v then 0#4 else c) := by
  rw [powerByte_eq_levelByte, modeCode_classify]
  cases rgbZero v <;> cases cwZero v <;> rfl

theorem levelByte_inj {r c r' c' : Nibble} : levelByte r c = levelByte r' c' ↔ r = r' ∧ c = c' := by
  refine ⟨fun h => ⟨?_, ?_⟩, fun ⟨hr, hc⟩ => by rw [hr, hc]⟩
  · rw [← highNibble_levelByte r c, h, highNibble_levelByte]
  · rw [← lowNibble_levelByte r c, h, lowNibble_levelByte]

/-- Two levels of a group give the same frame exactly when they are equal or the group is all zero. -/
theorem encodeFrame_eq_iff_levels (v : Five Half) (r r' c c' : Nibble) :
    encodeFrame v r c = encodeFrame v r' c' ↔ (rgbZero v = true ∨ r = r') ∧ (cwZero v = true ∨ c = c') := by
  have hpower : encodeFrame v r c = encodeFrame v r' c' ↔
      powerByte (classify v) r c = powerByte (classify v) r' c' := by
    simp [encodeFrame_cells]
  rw [hpower, powerByte_classify, powerByte_classify, levelByte_inj]
  cases rgbZero v <;> cases cwZero v <;> simp

/-- Settles O14: the levels 0 and 1 tell an active group from one that is all zero. -/
theorem inactiveGroupsLevelIsWithheld : Obligations.InactiveGroupsLevelIsWithheld := by
  intro v
  simp only [← rgbZero_iff, ← cwZero_iff]
  refine ⟨⟨fun hrgb r r' c => ?_, fun h => ?_⟩, ⟨fun hcw r c c' => ?_, fun h => ?_⟩⟩
  · exact (encodeFrame_eq_iff_levels ..).mpr ⟨.inl hrgb, .inr rfl⟩
  · obtain ⟨hrgb, -⟩ := (encodeFrame_eq_iff_levels ..).mp (h 0#4 1#4 0#4)
    exact hrgb.resolve_right (by decide)
  · exact (encodeFrame_eq_iff_levels ..).mpr ⟨.inr rfl, .inl hcw⟩
  · obtain ⟨-, hcw⟩ := (encodeFrame_eq_iff_levels ..).mp (h 0#4 0#4 1#4)
    exact hcw.resolve_right (by decide)

end Sys2Proof.Machine
end

section
/-! PROOFS. The trace through a transmission (R85, R87): each step puts out the operation of its position's number, so
the trace is always whole operations and the part of the current frame that is out. -/

namespace Sys2Proof.Machine

theorem traceWhole_of_idle {s : State} (h : s.seq = .idle) : TraceWhole s ↔ WholeTrace s.trace := by
  simp [TraceWhole, h]

theorem traceWhole_of_tx {s : State} {p : TxPos} (h : s.seq = .tx p) :
    TraceWhole s ↔
      ∃ base, WholeTrace base ∧ s.trace = base ++ (txOps (frameContent s.frame)).take (posIndex p) := by
  simp [TraceWhole, h]

/-- The operations of an encoded frame before position `p`, and then the one of `p`. -/
theorem txOps_take_succ_posIndex {p : TxPos} {v : Five Half} {r c : Nibble} {op : LineOp}
    (ho : lineAt p (encodeFrame v r c) = .ok op) :
    (txOps (frameContent (encodeFrame v r c))).take (posIndex p + 1) =
      (txOps (frameContent (encodeFrame v r c))).take (posIndex p) ++ [op] := by
  obtain ⟨op', ho', hget⟩ :=
    lineAt_eq_txOps p (encodeFrame v r c) _ (frameContent_length v r c) (encodeFrame_lookup v r c)
  cases ho'.symm.trans ho
  rw [List.take_add_one, hget, Option.toList_some]

/-- An instruction of the host sends one whole `CONSTRUCT`, sends nothing, or starts a frame of which nothing is out. -/
theorem exec_keeps_traceWhole {s t : State} {i : Instr} (htrace : TraceWhole s)
    (hport : Laws.Layout.portOf i = .host) (h : exec i s = .next t) : TraceWhole t := by
  have hidle := exec_next_idle h
  rw [traceWhole_of_idle hidle] at htrace
  cases exec_next h with
  | construct =>
    rw [traceWhole_of_idle (by simpa using hidle)]
    simpa using htrace.construct
  | setPowerLevels => exact (traceWhole_of_idle hidle).mpr htrace
  | write => exact (traceWhole_of_tx rfl).mpr ⟨s.trace, htrace, by simp [posIndex]⟩
  | drive hunit => exact absurd hport hunit
  | transmit hunit => exact absurd hport hunit

/-- A line operation of a transmission extends the part of the frame that is out, and the last one completes it. -/
theorem advance_keeps_traceWhole {s : State} {p : TxPos} {op : LineOp} (hinv : MachineInv s) (htrace : TraceWhole s)
    (hp : s.seq = .tx p) (ho : lineAt p s.frame = .ok op) : TraceWhole ((emit op s).advance p) := by
  obtain ⟨-, ⟨v, r, c, henc⟩, -, -⟩ := hinv.transmitting p hp
  obtain ⟨base, hbase, hout⟩ := (traceWhole_of_tx hp).mp htrace
  rw [henc] at ho hout
  have hgrown : ((emit op s).advance p).trace =
      base ++ (txOps (frameContent (encodeFrame v r c))).take (posIndex p + 1) := by
    rw [txOps_take_succ_posIndex ho, ← List.append_assoc, ← hout]
    rfl
  rcases nextPos_index p with ⟨hq, hi⟩ | ⟨q, hq, hi⟩
  · rw [hi, List.take_of_length_le (by rw [txOps_length, frameContent_length])] at hgrown
    exact (traceWhole_of_idle hq).mpr (hgrown ▸ hbase.frame v r c)
  · have hframe : ((emit op s).advance p).frame = encodeFrame v r c := by simp [hq, henc]
    exact (traceWhole_of_tx hq).mpr ⟨base, hbase, by rw [hframe, hi, hgrown]⟩

/-- Settles O44, by the three things a step can do: wait, run a host's instruction, issue a line operation. -/
theorem traceStaysMadeOfWholeOperations : Obligations.TraceStaysMadeOfWholeOperations := by
  intro s t hinv htrace h
  obtain ⟨-, -, rfl⟩ | ⟨hidle, p, rest, i, hpend, hdec, hexec⟩ | ⟨p, op, hp, ho, rfl⟩ := step_next h
  · exact htrace
  · have hhost : p.port = .host := hinv.hostOnly p (hpend ▸ List.mem_cons_self)
    exact exec_keeps_traceWhole (s := s.setPending rest) htrace (portOf_of_decode_host hhost hdec) hexec
  · exact advance_keeps_traceWhole hinv htrace hp ho

end Sys2Proof.Machine
end

section
/-! PROOFS. The transmission of twelve bytes as a list (R82, R84, R85, R88): its closed form, its counts, what a
listener samples, and where two of them can differ. -/

namespace Sys2Proof.Machine

/-! ### The closed form (R82) -/

/-- The closed form says the same of every byte, at its own place. -/
theorem closedOp_of_byte (f : Nat → Byte) {k r : Nat} (hk : k < 12) (hr : r < 27) :
    closedOp f (1 + 27 * k + r) = closedOp (fun _ => f k) (1 + r) := by
  have hdiv : (1 + 27 * k + r - 1) / 27 = k := by omega
  have hmod : (1 + 27 * k + r - 1) % 27 = r := by omega
  have hmod' : r % 27 = r := Nat.mod_eq_of_lt hr
  have hlow : 1 + 27 * k + r ≤ 324 := by omega
  have hlow' : 1 + r ≤ 324 := by omega
  simp [closedOp, hdiv, hmod, hmod', hlow, hlow']

theorem byteOps_get (b : Byte) {r : Nat} (hr : r < 27) : (byteOps b)[r]? = some (closedOp (fun _ => b) (1 + r)) := by
  interval_cases r <;> rfl

theorem closedOp_of_stop (f : Nat → Byte) {r : Nat} (hr : r < 3) : stopOps[r]? = some (closedOp f (325 + r)) := by
  interval_cases r <;> rfl

/-- Operation `n` is START's, one of a byte's 27, or one of STOP's three. -/
theorem txOps_get_eq_closedOp {bs : List Byte} (hl : bs.length = 12) {n : Nat} (hn : n < 328) :
    (txOps bs)[n]? = some (closedOp (fun k => bs.getD k 0#8) n) := by
  obtain rfl | ⟨k, r, hk, hr, rfl⟩ | ⟨r, hr, rfl⟩ :
      n = 0 ∨ (∃ k r, k < 12 ∧ r < 27 ∧ n = 1 + 27 * k + r) ∨ ∃ r, r < 3 ∧ n = 325 + r := by
    by_cases hbyte : n ≤ 324
    · by_cases h0 : n = 0
      · exact .inl h0
      · exact .inr (.inl ⟨(n - 1) / 27, (n - 1) % 27, by omega, by omega, by omega⟩)
    · exact .inr (.inr ⟨n - 325, by omega, by omega⟩)
  · rfl
  · have hget : bs[k]? = some (bs.getD k 0#8) := by simp [hl, hk]
    rw [txOps_get_byte bs k r _ hget hr, byteOps_get _ hr, closedOp_of_byte _ hk hr]
  · rw [← closedOp_of_stop _ hr, ← txOps_get_stop bs r, hl]

theorem txOps_length_of_twelve {bs : List Byte} (hl : bs.length = 12) : (txOps bs).length = 328 := by
  rw [txOps_length, hl]

/-- Settles O20. -/
theorem transmissionHasTheClosedForm : Obligations.TransmissionHasTheClosedForm :=
  fun _ hl => ⟨txOps_length_of_twelve hl, fun _ hn => txOps_get_eq_closedOp hl hn⟩

/-! ### The counts (R88) -/

/-- What every byte has `n` of, bytes have in proportion. -/
theorem countP_flatMap_byteOps {q : LineOp → Bool} {n : Nat} (hbyte : ∀ b, (byteOps b).countP q = n)
    (bs : List Byte) : (bs.flatMap byteOps).countP q = n * bs.length := by
  induction bs with
  | nil => rfl
  | cons b bs ih => rw [List.flatMap_cons, List.countP_append, hbyte, ih, List.length_cons, Nat.mul_succ, Nat.add_comm]

theorem countP_txOps {q : LineOp → Bool} {n : Nat} (hbyte : ∀ b, (byteOps b).countP q = n) (bs : List Byte) :
    (txOps bs).countP q = startOps.countP q + n * bs.length + stopOps.countP q := by
  rw [txOps, List.countP_append, List.countP_append, countP_flatMap_byteOps hbyte]

/-- Settles O21: each byte moves the clock down nine times, up nine times, and sets the data line nine times. -/
theorem transmissionCounts : Obligations.TransmissionCounts := by
  intro bs hl
  refine ⟨txOps_length_of_twelve hl, ?_, ?_, ?_⟩
  · rw [List.count, countP_txOps (n := 9) (fun _ => rfl), hl]; rfl
  · rw [List.count, countP_txOps (n := 9) (fun _ => rfl), hl]; rfl
  · rw [countP_txOps (n := 9) (fun _ => rfl), hl]; rfl

/-! ### What a listener samples (R84) -/

/-- At a byte's nine rising clocks the data line has the byte's bits and then the trailer's high level, whatever level
it had before. -/
theorem risingLevels_byteOps (d : Bool) (b : Byte) (rest : List LineOp) :
    risingLevels d true (byteOps b ++ rest) = bitsOf b ++ [true] ++ risingLevels true true rest := rfl

/-- The trailer leaves both lines high, which is how the next byte finds them. -/
theorem risingLevels_flatMap_byteOps (bs : List Byte) (rest : List LineOp) :
    risingLevels true true (bs.flatMap byteOps ++ rest) =
      bs.flatMap (fun b => bitsOf b ++ [true]) ++ risingLevels true true rest := by
  induction bs with
  | nil => rfl
  | cons b bs ih => simp only [List.flatMap_cons, List.append_assoc, risingLevels_byteOps, ih]

/-- Settles O22: START pulls the data line low, the first byte's trailer sets it high again, and STOP's one rising clock
finds it so. -/
theorem risingClockSamplesFrameBits : Obligations.RisingClockSamplesFrameBits := by
  intro bs hl
  cases bs with
  | nil => cases hl
  | cons b bs =>
    calc risingLevels true true (txOps (b :: bs))
      _ = risingLevels false true (byteOps b ++ (bs.flatMap byteOps ++ stopOps)) := by
        rw [txOps, List.flatMap_cons, List.append_assoc, List.append_assoc]
        rfl
      _ = (b :: bs).flatMap (fun b => bitsOf b ++ [true]) ++ risingLevels true true stopOps := by
        simp only [risingLevels_byteOps, risingLevels_flatMap_byteOps, List.flatMap_cons, List.append_assoc]

/-! ### What depends on the bytes (R85) -/

/-- Which line an operation is on does not depend on the bytes. -/
theorem closedOp_line (f g : Nat → Byte) (n : Nat) : (closedOp f n).line = (closedOp g n).line := by
  simp only [closedOp]
  split_ifs <;> rfl

/-- Only an operation that sends a data bit depends on the bytes. -/
theorem data_bit_of_closedOp_ne {f g : Nat → Byte} {n : Nat} (hne : closedOp f n ≠ closedOp g n) :
    ∃ k j, k < 12 ∧ j < 8 ∧ n = 1 + 27 * k + 3 * (7 - j) + 1 := by
  simp only [closedOp] at hne
  split_ifs at hne
  any_goals exact absurd rfl hne
  exact ⟨(n - 1) / 27, 7 - (n - 1) % 27 / 3, by omega, by omega, by omega⟩

/-- Settles O23, by the closed form. -/
theorem onlyDataBitLevelsDependOnTheFrame : Obligations.OnlyDataBitLevelsDependOnTheFrame := by
  intro bs cs hb hc
  have hend {n : Nat} (hn : ¬ n < 328) : (txOps bs)[n]? = (txOps cs)[n]? := by
    rw [List.getElem?_eq_none (by rw [txOps_length_of_twelve hb]; omega),
      List.getElem?_eq_none (by rw [txOps_length_of_twelve hc]; omega)]
  refine ⟨List.ext_getElem? fun n => ?_, fun n hne => ?_⟩
  · rw [List.getElem?_map, List.getElem?_map]
    by_cases hn : n < 328
    · rw [txOps_get_eq_closedOp hb hn, txOps_get_eq_closedOp hc hn, Option.map_some, Option.map_some, closedOp_line]
    · rw [hend hn]
  · have hn : n < 328 := not_imp_comm.mp hend hne
    rw [txOps_get_eq_closedOp hb hn, txOps_get_eq_closedOp hc hn] at hne
    exact data_bit_of_closedOp_ne fun heq => hne (congrArg some heq)

end Sys2Proof.Machine
end

section
/-! PROOFS. `WRITE` and the steps of its transmission (R73, R81, R83, R87): how it begins, row by row of the sequencer's
table, that it lasts 328 steps, and when the data line moves. -/

namespace Sys2Proof.Machine

/-! ### How a write begins -/

/-- Settles O16. -/
theorem writeBuildsFrameAndStartsSequencer : Obligations.WriteBuildsFrameAndStartsSequencer :=
  fun _ _ _ _ hidle hcon hr hc => exec_write_of_ready hidle hcon hr hc

/-- A write that answers a next state has started the transmission of a frame with a byte at each offset of frame
space (R28). -/
theorem exec_write_next {i : Instr} {s t : State} (hi : (∃ v, i = .write v) ∨ ∃ f, i = .writeNormalized f)
    (h : exec i s = .next t) :
    ∃ m : Memory, t = s.startTx m ∧ m.wf ∧ ∀ a, a < 12 → (m.lookup a).isSome := by
  have hport : Laws.Layout.portOf i = .host := by obtain ⟨v, rfl⟩ | ⟨f, rfl⟩ := hi <;> rfl
  cases exec_next h with
  | construct => simp at hi
  | setPowerLevels => simp at hi
  | @write _ v r c => exact ⟨_, rfl, encodeFrame_wf v r c, fun _ ha => encodeFrame_lookup_isSome v r c ha⟩
  | drive hunit => exact absurd hport hunit
  | transmit hunit => exact absurd hport hunit

/-- Settles O33: frame space ends at offset 12, for the frame before and for the one started. -/
theorem writesStoreOnlyToTheFrame : Obligations.WritesStoreOnlyToTheFrame := by
  intro s t i hi hwf h
  obtain ⟨m, rfl, hwf', -⟩ := exec_write_next hi h
  refine ⟨fun a ha => ?_, rfl, rfl, rfl, rfl, rfl, rfl, rfl⟩
  rw [Memory.lookup_outside _ a hwf ha]
  exact Memory.lookup_outside m a hwf' ha

/-! ### The table of `out(s)` and `next(s)` (R81) -/

/-- A row of the table: the step at `p` issues `out(p)` and moves `SEQ` to `next(p)`; the frame ends with the
transmission. -/
theorem step_of_row {s : State} {p : TxPos} {op : LineOp} {q : SeqPos} (hp : s.seq = .tx p)
    (hout : lineAt p s.frame = .ok op) (hnext : nextPos p = q) :
    step s = .next { emit op s with seq := q, frame := if q = .idle then [] else s.frame } := by
  subst hnext
  exact step_tx hp hout

/-- Settles O24, row by row. -/
theorem sequencerStepTable : Obligations.SequencerStepTable := by
  refine ⟨fun s => step_idle_wait, fun s v t h => ?_, fun s b hb => ?_⟩
  · obtain ⟨m, rfl, -, hfull⟩ := exec_write_next (.inl ⟨v, rfl⟩) h
    exact ⟨rfl, rfl, hfull⟩
  · refine ⟨fun hp => ?start, fun k j hp => ?bit0, fun k j hp => ?bit1, fun k j j' hp hj => ?bit2, fun k hp => ?bitLast,
      fun k hp => ?trl0, fun k hp => ?trl1, fun k k' hp hk => ?trl2, fun hp => ?trlLast, fun hp => ?stop0,
      fun hp => ?stop1, fun hp => ?stop2⟩
    case bit1 => exact step_of_row hp (lineAt_bit_p1 j (hb k)) rfl
    case bit2 =>
      have hpred : (⟨j.val - 1, by omega⟩ : Fin 8) = j' := Fin.ext (by simp [hj])
      exact step_of_row hp rfl (hpred ▸ nextPos_bit_p2 k j (by omega))
    case trl2 =>
      have hsucc : (⟨k.val + 1, by omega⟩ : Fin 12) = k' := Fin.ext hk.symm
      exact step_of_row hp rfl (hsucc ▸ nextPos_trl_p2 k (by omega))
    all_goals exact step_of_row hp rfl rfl

/-! ### A write run to its end (R73, R87) -/

/-- The state a write of frame `m` ends in. -/
def State.afterFrame (s : State) (m : Memory) : State :=
  { s with
    dataOut := some true, clkOut := some true, frame := [], seq := .idle,
    trace := s.trace ++ txOps (frameContent m) }

theorem stepN_write {s : State} (hidle : s.seq = .idle) (hcon : s.constructed = true) (v : Five Half) (r c : Nibble) :
    stepN 328 (s.startTx (encodeFrame v r c)) = .next (s.afterFrame (encodeFrame v r c)) := by
  rw [stepN_startTx hidle hcon (frameContent_length v r c) (encodeFrame_lookup v r c),
    transmit_of_ready _ hidle hcon, State.afterFrame, ← hidle]

/-- Fewer steps than are left of a transmission stay in it. -/
theorem stepN_stays_transmitting {bs : List Byte} (hl : bs.length = 12) (n : Nat) {s : State} {p : TxPos}
    (hp : s.seq = .tx p) (hframe : ∀ k : Fin 12, s.frame.lookup k.val = bs[k.val]?) (hn : posIndex p + n < 328) :
    ∃ u, stepN n s = .next u ∧ u.seq ≠ .idle := by
  induction n generalizing s p with
  | zero => exact ⟨s, rfl, by simp [hp]⟩
  | succ n ih =>
    obtain ⟨op, ho, -⟩ := lineAt_eq_txOps p s.frame bs hl hframe
    simp only [stepN, step_tx hp ho]
    rcases nextPos_index p with ⟨-, hi⟩ | ⟨q, hq, hi⟩
    · omega
    · exact ih (p := q) hq (by simpa [hq] using hframe) (by omega)

theorem stepN_startTx_stays_transmitting {s : State} {m : Memory} {bs : List Byte} (hl : bs.length = 12)
    (hm : ∀ k : Fin 12, m.lookup k.val = bs[k.val]?) {n : Nat} (hn : n < 328) :
    ∃ u, stepN n (s.startTx m) = .next u ∧ u.seq ≠ .idle :=
  stepN_stays_transmitting (p := .start) hl n rfl hm (by simpa [posIndex] using hn)

/-- Settles O18. -/
theorem writeTransmitsWholeFrameIn328Steps : Obligations.WriteTransmitsWholeFrameIn328Steps :=
  fun _ v r c hidle hcon hr hc => ⟨_, exec_write_of_ready hidle hcon hr hc, stepN_write hidle hcon v r c,
    fun _ hn => stepN_startTx_stays_transmitting (frameContent_length v r c) (encodeFrame_lookup v r c) hn⟩

/-- Settles O27: the state a write ends in accepts the same write again, with the same levels. -/
theorem repeatedWritesRepeatThePulses : Obligations.RepeatedWritesRepeatThePulses := by
  intro s v r c hidle hcon hr hc
  have hlength := txOps_length_of_twelve (frameContent_length v r c)
  have hfirst := exec_write_of_ready (v := v) hidle hcon hr hc
  have hfirstEnd := stepN_write hidle hcon v r c
  have hsecond := exec_write_of_ready (s := s.afterFrame (encodeFrame v r c)) (v := v) rfl hcon hr hc
  have hsecondEnd := stepN_write (s := s.afterFrame (encodeFrame v r c)) rfl hcon v r c
  generalize encodeFrame v r c = m at hlength hfirst hfirstEnd hsecond hsecondEnd
  exact ⟨_, _, _, _, _, hlength, hfirst, hfirstEnd, rfl, hsecond, rfl, hsecondEnd, rfl⟩

/-! ### When the lines move (R83) -/

/-- A data operation other than START's comes while the clock is low, but for STOP's last, which repeats the level. -/
theorem lineAt_data {p : TxPos} {m : Memory} {op : LineOp} (ho : lineAt p m = .ok op) (hdata : op.line = .data) :
    clkBefore p = false ∨ p = .start ∨ dataBefore m p = some op.level := by
  rcases p with _ | ⟨k, j, _ | _ | _⟩ | ⟨k, _ | _ | _⟩ | _ | _ | _
  case start => exact .inr (.inl rfl)
  case bit.p1 => exact .inl rfl
  case trl.p1 => exact .inl rfl
  case stop.p2 => cases ho; exact .inr (.inr rfl)
  all_goals cases ho; cases hdata

/-- A clock operation finds the clock at the other level. -/
theorem lineAt_clk {p : TxPos} {m : Memory} {op : LineOp} (ho : lineAt p m = .ok op) (hclk : op.line = .clk) :
    clkBefore p = !op.level := by
  rcases p with _ | ⟨k, j, _ | _ | _⟩ | ⟨k, _ | _ | _⟩ | _ | _ | _
  case bit.p1 =>
    obtain ⟨b, -, rfl⟩ := lineAt_bit_p1_ok ho
    cases hclk
  case start | trl.p1 | stop.p2 => cases ho; cases hclk
  all_goals cases ho; rfl

/-- Settles O25: under the invariant the latches are the levels before the position. -/
theorem dataMovesOnlyWhileClockIsLow : Obligations.DataMovesOnlyWhileClockIsLow := by
  intro s t p hinv hp h
  obtain ⟨-, -, hclk, hdata⟩ := hinv.transmitting p hp
  obtain ⟨op, ho, rfl⟩ := step_tx_next hp h
  rw [hclk]
  refine ⟨fun hmoves => ?_, fun b htrace => ?_⟩
  · have hline : op.line = .data := by
      by_contra hother
      simp [hother] at hmoves
    rcases lineAt_data ho hline with hlow | hstart | hsame
    · exact .inl (congrArg some hlow)
    · exact .inr hstart
    · simp [hline, hdata, hsame] at hmoves
  · obtain rfl : op = ⟨.clk, b⟩ := by simpa using htrace
    exact ⟨congrArg some (lineAt_clk ho rfl), rfl⟩

end Sys2Proof.Machine
end

section
/-! PROOFS. The units of output by themselves (R74, R75, R78), and the step in `IDLE` and behind a transmission (R81,
R85, R109). -/

namespace Sys2Proof.Machine

/-! ### The units of output -/

/-- Settles O28: a line operation presented by itself is a list of one. -/
theorem lineOperationsRecordAndLatch : Obligations.LineOperationsRecordAndLatch :=
  ⟨fun _ _ => ⟨rfl, rfl⟩, fun _ hidle hcon =>
    ⟨drive_of_ready [⟨.data, false⟩] hidle hcon, drive_of_ready [⟨.data, true⟩] hidle hcon,
      drive_of_ready [⟨.clk, false⟩] hidle hcon, drive_of_ready [⟨.clk, true⟩] hidle hcon⟩⟩

/-- Settles O29: `emit` has the report as an argument and never looks at it. -/
theorem lineReportsAreDiscarded : Obligations.LineReportsAreDiscarded := fun _ _ _ _ => rfl

/-- The trailer leaves both lines high (R79). -/
theorem latchAfter_byteOps (l : Line) (o : Option Bool) (b : Byte) : latchAfter l o (byteOps b) = some true := by
  cases l <;> rfl

/-- Settles O30. -/
theorem byteIsEightPulsesAndATrailer : Obligations.ByteIsEightPulsesAndATrailer := by
  intro s b hidle hcon
  rw [exec, execByte, drive_of_ready _ hidle hcon, latchAfter_byteOps, latchAfter_byteOps]
  rfl

/-- Settles O34: a frame kind is a transmission taken whole, and ends without a frame. -/
theorem frameKindsLeaveRegistersAndMemory : Obligations.FrameKindsLeaveRegistersAndMemory := by
  intro s t i hkind hframe h
  have hport : (encode i).port = .frame := by
    obtain rfl | ⟨r, p, q, w, rfl⟩ | ⟨c, x, y, rfl⟩ | ⟨r, c, p, q, w, x, y, rfl⟩ := hkind <;> rfl
  rw [exec_of_frame_port hport] at h
  obtain ⟨hidle, hcon, -⟩ := whenReady_next h
  cases (transmit_of_ready _ hidle hcon).symm.trans h
  exact ⟨fun a => by rw [hframe], rfl, rfl, rfl, rfl, rfl⟩

/-! ### The step in `IDLE` -/

/-- Settles O35. -/
theorem stepRunsTheDecodedWord : Obligations.StepRunsTheDecodedWord :=
  fun _ _ _ _ hidle hpend hdec => step_idle_run hidle hpend hdec

theorem step_idle_refuse {s : State} {p : Packet} {rest : List Packet} {e : DecodeError} (hidle : s.seq = .idle)
    (hpend : s.pending = p :: rest) (hdec : decode p = .error e) : step s = .refused (.undecodable e) := by
  simp [step, hidle, idleStep, hpend, hdec]

/-- Settles O36. -/
theorem idleStepWaitsOrRefuses : Obligations.IdleStepWaitsOrRefuses :=
  fun _ hidle => ⟨step_idle_wait hidle, fun _ _ _ hpend hdec => step_idle_refuse hidle hpend hdec⟩

theorem decode_of_decodeTableWord {nbits w : Nat} {i : Instr} (h : decodeTableWord nbits w = some i) :
    decode (tablePacket nbits w) = .ok i := by
  unfold decodeTableWord at h
  split at h
  · next hdec => cases h; exact hdec
  · cases h

/-- In an idle state the harness changes only the words waiting, so taking its word gives the state back. -/
theorem setPending_withFetchWord {s : State} (hidle : s.seq = .idle) (nbits w : Nat) :
    (s.withFetchWord nbits w).setPending s.pending = s := by
  cases s
  cases hidle
  rfl

/-- Settles O37. -/
theorem fetchWordIsWhatTheNextStepRuns : Obligations.FetchWordIsWhatTheNextStepRuns := by
  intro s nbits w i hidle hword
  rw [step_idle_run (State.withFetchWord_seq s nbits w) (State.withFetchWord_pending s nbits w)
    (decode_of_decodeTableWord hword), setPending_withFetchWord hidle]

/-! ### The words waiting behind a transmission -/

/-- Settles O38: the operation of a position is read from the frame only. -/
theorem waitingWordsDoNotTouchATransmission : Obligations.WaitingWordsDoNotTouchATransmission := by
  intro s t ps hbusy h
  obtain ⟨p, hp⟩ := seq_tx_of_ne_idle hbusy
  obtain ⟨op, ho, rfl⟩ := step_tx_next hp h
  exact ⟨rfl, step_tx (s := s.setPending ps) hp ho⟩

end Sys2Proof.Machine
end

section
/-! PROOFS. The normalized conversion (R90 to R92): a pattern's value in units of 2^-149, `NORM` by the range the value
lies in, and `WRITE_NORMALIZED` (R89). -/

namespace Sys2Proof.Machine

/-! ### The value of a pattern in units of 2^-149 (log entry 7) -/

theorem f32Value_eq_units (x : Single) :
    f32Value x = (if f32Sign x then -1 else 1) * ((f32Units x : ℚ) / 2 ^ 149) := by
  change (if f32Exp x = 0 then (if f32Sign x then -1 else 1) * (2 : ℚ) ^ (-126 : Int) * ((f32Frac x : ℚ) / 2 ^ 23)
    else (if f32Sign x then -1 else 1) * (2 : ℚ) ^ ((f32Exp x : Int) - 127) * (1 + (f32Frac x : ℚ) / 2 ^ 23)) = _
  unfold f32Units
  split
  · ring
  · next he =>
    have hpow : (2 : ℚ) ^ ((f32Exp x : Int) - 127) = 2 ^ (f32Exp x - 1) / 2 ^ 126 := by
      rw [← zpow_natCast, ← zpow_natCast, ← zpow_sub₀ two_ne_zero]
      congr 1
      omega
    push_cast
    rw [hpow]
    ring

theorem f32Units_eq_zero_iff (x : Single) : f32Units x = 0 ↔ f32IsZero x = true := by
  unfold f32Units f32IsZero
  split <;> simp_all

theorem f32Value_neg_iff (x : Single) : f32Value x < 0 ↔ f32Sign x = true ∧ f32IsZero x = false := by
  rw [f32Value_eq_units, ← Bool.not_eq_true (f32IsZero x), ← f32Units_eq_zero_iff, ← ne_eq, ← Nat.pos_iff_ne_zero]
  have hunits : (0 : ℚ) ≤ (f32Units x : ℚ) / 2 ^ 149 := by positivity
  cases f32Sign x
  · simpa using hunits
  · simp

/-- A pattern of value 0 or more is its units, −0.0 among them. -/
theorem f32Value_of_nonneg {x : Single} (h : 0 ≤ f32Value x) : f32Value x = (f32Units x : ℚ) / 2 ^ 149 := by
  have hzero : f32Sign x = true → f32Units x = 0 := by
    simpa [f32Value_neg_iff, f32Units_eq_zero_iff] using h.not_gt
  rw [f32Value_eq_units]
  split
  · next hsign => simp [hzero hsign]
  · exact one_mul _

theorem scaledFloor_eq_floor {x : Single} (h : 0 ≤ f32Value x) : (scaledFloor x : Int) = ⌊f32Value x * 1024⌋ := by
  have hscaled : f32Value x * 1024 = ((f32Units x * 1024 : Nat) : ℚ) / (2 ^ 149 : Nat) := by
    rw [f32Value_of_nonneg h]
    push_cast
    ring
  rw [hscaled, Rat.floor_natCast_div_natCast]
  rfl

theorem scaledFloor_lt_iff {x : Single} (h : 0 ≤ f32Value x) (n : Nat) : scaledFloor x < n ↔ f32Value x * 1024 < n := by
  rw [← Int.ofNat_lt, scaledFloor_eq_floor h, Int.floor_lt, Int.cast_natCast]

/-! ### `NORM` by the range of the value -/

theorem f32Exp_ne_of_finite {x : Single} (h : f32Finite x) : f32Exp x ≠ 255 :=
  fun he => h (BitVec.eq_of_toNat_eq he)

theorem normOpen_iff_neg {x : Single} (h : f32Finite x) : normOpen x = true ↔ f32Value x < 0 := by
  simp [f32Value_neg_iff, normOpen, f32IsNan, f32Exp_ne_of_finite h]

theorem normTooLarge_iff {x : Single} (h : f32Finite x) : normTooLarge x = true ↔ 2 ^ 16 ≤ scaledFloor x := by
  simp [normTooLarge, f32IsInf, f32Exp_ne_of_finite h]

theorem le_atLeastLimit (y : Half) : 1024 ≤ (atLeastLimit y).toNat := by
  unfold atLeastLimit
  split
  · decide
  · next hlimit => exact Nat.le_of_not_lt hlimit

theorem normOf_of_open {x : Single} (h : normOpen x = true) : normOf x = Config.normOor x := if_pos h

theorem normOf_of_tooLarge {x : Single} (ho : ¬ normOpen x = true) (hl : normTooLarge x = true) :
    normOf x = atLeastLimit (Config.normHuge x) := by
  rw [normOf, if_neg ho, if_pos hl]

theorem normOf_of_fits {x : Single} (ho : ¬ normOpen x = true) (hl : ¬ normTooLarge x = true) :
    normOf x = BitVec.ofNat 16 (scaledFloor x) := by
  rw [normOf, if_neg ho, if_neg hl]

/-- R90, R91: below 64.0 the scaled value fits 16 bits. -/
theorem normOf_toNat_of_lt_64 {x : Single} (hfin : f32Finite x) (h0 : 0 ≤ f32Value x) (h64 : f32Value x < 64) :
    (normOf x).toNat = scaledFloor x := by
  have hfits : scaledFloor x < 2 ^ 16 := (scaledFloor_lt_iff h0 _).mpr (by norm_num; linarith)
  rw [normOf_of_fits (by simpa [normOpen_iff_neg hfin] using h0) (by simpa [normTooLarge_iff hfin] using hfits),
    BitVec.toNat_ofNat, Nat.mod_eq_of_lt hfits]

/-- R91: from 64.0 up the scaled value does not fit 16 bits (log entry 6). -/
theorem normOf_eq_atLeastLimit {x : Single} (hfin : f32Finite x) (h64 : 64 ≤ f32Value x) :
    normOf x = atLeastLimit (Config.normHuge x) := by
  have h0 : 0 ≤ f32Value x := by linarith
  have hlarge : 2 ^ 16 ≤ scaledFloor x := by
    rw [← not_lt, scaledFloor_lt_iff h0]
    norm_num
    linarith
  exact normOf_of_tooLarge (by simpa [normOpen_iff_neg hfin] using h0) ((normTooLarge_iff hfin).mpr hlarge)

theorem le_normOf_of_one_le {x : Single} (hfin : f32Finite x) (h1 : 1 ≤ f32Value x) : 1024 ≤ (normOf x).toNat := by
  have h0 : 0 ≤ f32Value x := by linarith
  rcases lt_or_ge (f32Value x) 64 with h64 | h64
  · rw [normOf_toNat_of_lt_64 hfin h0 h64, ← not_lt, scaledFloor_lt_iff h0]
    norm_num
    linarith
  · rw [normOf_eq_atLeastLimit hfin h64]
    exact le_atLeastLimit _

theorem clamp_toNat_of_limit_le {y : Half} (h : 1024 ≤ y.toNat) : (clamp y).toNat = 1023 := by
  rw [clamp_toNat]
  omega

/-- Settles O54. -/
theorem normOfUnitIntervalIsFloor : Obligations.NormOfUnitIntervalIsFloor := by
  intro x hfin h0 h1
  rw [normOf_toNat_of_lt_64 hfin h0 (by linarith)]
  exact ⟨scaledFloor_eq_floor h0, (scaledFloor_lt_iff h0 _).mpr (by norm_num; linarith)⟩

/-- Settles O55. -/
theorem normFromOneUpIsEncodedAs1023 : Obligations.NormFromOneUpIsEncodedAs1023 := by
  have hinf : 1024 ≤ (normOf 0x7F800000#32).toNat := by
    rw [normOf_of_tooLarge (by decide) (by decide)]
    exact le_atLeastLimit _
  refine ⟨fun x hfin h1 => ?_, hinf, clamp_toNat_of_limit_le hinf⟩
  have h0 : 0 ≤ f32Value x := by linarith
  have hle := le_normOf_of_one_le hfin h1
  refine ⟨hle, clamp_toNat_of_limit_le hle, fun h64 => ?_⟩
  rw [normOf_toNat_of_lt_64 hfin h0 h64, scaledFloor_eq_floor h0]

/-- R92: an all-ones exponent and a fraction that is not 0 are not a number. -/
theorem normOpen_of_nan {x : Single} (he : x.extractLsb' 23 8 = 255#8) (hf : x.extractLsb' 0 23 ≠ 0#23) :
    normOpen x = true := by
  have hexp : f32Exp x = 255 := congrArg BitVec.toNat he
  have hfrac : f32Frac x ≠ 0 := fun h => hf (BitVec.eq_of_toNat_eq h)
  simp [normOpen, f32IsNan, hexp, hfrac]

/-- Settles O56. -/
theorem normElsewhereIsTheOpenParameter : Obligations.NormElsewhereIsTheOpenParameter :=
  ⟨fun _ hfin hneg => normOf_of_open ((normOpen_iff_neg hfin).mpr hneg), normOf_of_open (by decide),
    fun _ he hf => normOf_of_open (normOpen_of_nan he hf)⟩

/-! ### `WRITE_NORMALIZED` -/

/-- Settles O17: both commands are `beginWrite`, of the operands `mapFive normOf` converts. -/
theorem writeNormalizedIsWriteOfConvertedOperands : Obligations.WriteNormalizedIsWriteOfConvertedOperands :=
  fun _ f => ⟨rfl, fun _ _ hidle hcon hr hc => exec_write_of_ready (v := mapFive normOf f) hidle hcon hr hc⟩

end Sys2Proof.Machine
end

section
/-! PROOFS. The reads that could find no value (R32, R93): the power levels when a write builds its frame, the frame
bytes while it is sent. -/

namespace Sys2Proof.Machine

/-- A host command that a guard does not refuse completes: where the machine is constructed, both levels have a value. -/
theorem exec_host_ne_fault {i : Instr} {s : State} (hport : Laws.Layout.portOf i = .host)
    (hlev : s.constructed = true → s.rgbPl.isSome ∧ s.cwPl.isSome) (f : Fault) : exec i s ≠ .fault f := by
  intro hfault
  by_cases hidle : s.seq = .idle
  · by_cases hready : i = .construct ∨ s.constructed = true
    · obtain ⟨t, h⟩ := exec_host_completes hport hidle hready hlev
      cases h.symm.trans hfault
    · obtain ⟨hi, hun⟩ := not_or.mp hready
      cases (exec_of_unconstructed hi hidle (Bool.eq_false_iff.mpr hun)).symm.trans hfault
  · cases (exec_of_busy i hidle).symm.trans hfault

/-- A step in a transmission completes, whatever words wait: the frame is one the encoder built, so every byte the
sequencer may read is there. -/
theorem step_tx_completes {s : State} {p : TxPos} (hinv : MachineInv s) (hseq : s.seq = .tx p) :
    ∃ t, step s = .next t := by
  obtain ⟨-, ⟨v, r, c, henc⟩, -, -⟩ := hinv.transmitting p hseq
  obtain ⟨op, ho, -⟩ :=
    lineAt_eq_txOps p (encodeFrame v r c) _ (frameContent_length v r c) (encodeFrame_lookup v r c)
  exact ⟨_, step_tx hseq (henc ▸ ho)⟩

/-- Settles O46: in `IDLE` the step waits, refuses the word, or runs a host command; in a transmission it completes. -/
theorem noStepFaultsUnderInv : Obligations.NoStepFaultsUnderInv := by
  intro s hinv f hfault
  cases hseq : s.seq with
  | idle =>
    cases hpend : s.pending with
    | nil => cases (step_idle_wait hseq hpend).symm.trans hfault
    | cons p rest =>
      cases hdec : decode p with
      | error e => cases (step_idle_refuse hseq hpend hdec).symm.trans hfault
      | ok i =>
        have hhost : p.port = .host := hinv.hostOnly p (hpend ▸ List.mem_cons_self)
        exact exec_host_ne_fault (s := s.setPending rest) (portOf_of_decode_host hhost hdec) hinv.levels f
          ((step_idle_run hseq hpend hdec).symm.trans hfault)
  | tx p =>
    obtain ⟨t, h⟩ := step_tx_completes hinv hseq
    cases h.symm.trans hfault

end Sys2Proof.Machine
end

section
/-! PROOFS. A run ends (R109, R114): the host's commands are refused during a transmission, and each step takes at least
one off the steps still to come, counted as 329 for each word waiting and those left of the transmission. -/

namespace Sys2Proof.Machine

/-- Settles O5. -/
theorem hostCommandsRefusedWhileBusy : Obligations.HostCommandsRefusedWhileBusy :=
  fun _ hbusy => ⟨exec_of_busy _ hbusy, fun _ _ => exec_of_busy _ hbusy, fun _ => exec_of_busy _ hbusy,
    fun _ => exec_of_busy _ hbusy⟩

/-! ### The steps still to come -/

/-- The steps left of the transmission, of 328 (R81, R88). -/
def SeqPos.stepsLeft : SeqPos → Nat
  | .idle => 0
  | .tx p => 328 - posIndex p

/-- The steps left of the transmission, and for each word waiting the step that takes it and a transmission of 328. -/
def State.stepsLeft (s : State) : Nat := s.seq.stepsLeft + 329 * s.pending.length

theorem SeqPos.stepsLeft_le (q : SeqPos) : q.stepsLeft ≤ 328 := by
  cases q with
  | idle => exact Nat.zero_le _
  | tx p => exact Nat.sub_le _ _

theorem SeqPos.stepsLeft_eq_zero {q : SeqPos} (h : q.stepsLeft = 0) : q = .idle := by
  cases q with
  | idle => rfl
  | tx p => exact absurd h (Nat.sub_ne_zero_of_lt (posIndex_lt p))

/-- A position has one step more left than the next one. -/
theorem stepsLeft_nextPos (p : TxPos) : (nextPos p).stepsLeft + 1 = (SeqPos.tx p).stepsLeft := by
  have := posIndex_lt p
  rcases nextPos_index p with ⟨hq, hi⟩ | ⟨q, hq, hi⟩
  · rw [hq, SeqPos.stepsLeft, SeqPos.stepsLeft, hi]
  · rw [hq, SeqPos.stepsLeft, SeqPos.stepsLeft, hi]
    omega

theorem State.stepsLeft_eq_zero {s : State} (h : s.stepsLeft = 0) : s.seq = .idle ∧ s.pending = [] := by
  obtain ⟨hseq, hpend⟩ := Nat.add_eq_zero_iff.mp h
  exact ⟨SeqPos.stepsLeft_eq_zero hseq, List.eq_nil_of_length_eq_zero (by omega)⟩

/-- Every step takes at least one off the steps still to come, until none are left: a word taken costs 329 and starts at
most one transmission. -/
theorem step_stepsLeft {s t : State} (h : step s = .next t) : t.stepsLeft ≤ s.stepsLeft - 1 := by
  obtain ⟨hidle, hpend, rfl⟩ | ⟨-, p, rest, i, hpend, -, hexec⟩ | ⟨p, op, hp, -, rfl⟩ := step_next h
  · simp [State.stepsLeft, SeqPos.stepsLeft, hidle, hpend]
  · have hleft := t.seq.stepsLeft_le
    simp only [State.stepsLeft, exec_pending hexec, hpend, State.setPending_pending, List.length_cons]
    omega
  · have hnext := stepsLeft_nextPos p
    simp only [State.stepsLeft, State.advance_seq, State.advance_pending, emit_pending, hp]
    omega

/-! ### A run to its end -/

/-- As many steps as are still to come, or more, lead a constructed block with only words waiting that decode to a state
in which none are. -/
theorem stepN_reaches_no_stepsLeft (n : Nat) {s : State} (hinv : MachineInv s) (hcon : s.constructed = true)
    (hdecs : Decodable s.pending) (hn : s.stepsLeft ≤ n) :
    ∃ t, stepN n s = .next t ∧ MachineInv t ∧ t.constructed = true ∧ t.stepsLeft = 0 := by
  induction n generalizing s with
  | zero => exact ⟨s, rfl, hinv, hcon, Nat.le_zero.mp hn⟩
  | succ n ih =>
    obtain ⟨t, h, hcon', hdecs'⟩ := stepsNeverStickOnceConstructed s hinv hcon hdecs
    have hleft := step_stepsLeft h
    simp only [stepN, h]
    exact ih (everyStepKeepsTheInv s t hinv h) hcon' hdecs' (by omega)

/-- Settles O48: a run of as many steps as are still to come ends in `IDLE` with nothing waiting, and there the
invariant has both lines high. -/
theorem everyPendingOperationCompletes : Obligations.EveryPendingOperationCompletes := by
  intro s hinv hcon hdecs
  obtain ⟨t, hrun, hinv', hcon', hnone⟩ := stepN_reaches_no_stepsLeft s.stepsLeft hinv hcon hdecs le_rfl
  obtain ⟨hidle, hpend⟩ := State.stepsLeft_eq_zero hnone
  obtain ⟨-, hlines⟩ := hinv'.idle hidle
  obtain ⟨hdata, hclk⟩ := hlines hcon'
  exact ⟨s.stepsLeft, t, Nat.add_le_add_right s.seq.stepsLeft_le _, hrun, hidle, hpend, hdata, hclk⟩

end Sys2Proof.Machine
end
